-- ==== Sys2Proof/Word.lean ====
section
/-! DEFINITION. The machine's words: a byte (R9), the 9-bit program counter (R24), and the shape of memory. -/

namespace Sys2Proof

/-- An architectural data value: an unsigned 8-bit integer (R9). -/
abbrev Byte := BitVec 8

/-- The program counter: 9 bits, so that "past the top of memory" is a value of its own (R24). -/
abbrev Pc := BitVec 9

/-- Memory as sparse data: (address, byte) pairs in the canonical form `Memory.wf` of Machine/Ops.lean.
A memory cell's key is a natural number, as addresses are in the spec (R9, R40). -/
abbrev Memory := List Host.Cell

end Sys2Proof
end

