-- ==== Sys2Proof/Config.lean ====
section
/-! DEFINITION. What one implementation fixes: the constants of R5, the types of the parameters that R7 and R38
leave open, and the one open value without a default, FL_LAYOUT. The default VALUES of the parameters stand in
Decode.lean (`defaultParams`); the parameters themselves are a field of State (log 1). -/

namespace Sys2Proof

/-- `MEM_SIZE`: the number of memory cells (R5, R40). -/
def Config.memSize : Nat := 256

/-- `SP_INDEX`: register 7 is the stack pointer (R5, R22). -/
def Config.spIndex : Fin 8 := 7

/-- `SP_RESET`: the stack pointer's value after reset (R5, R22). -/
def Config.spReset : Byte := 0xF4

/-- `LOAD_BASE`: the loader's first address (R5, R48). -/
def Config.loadBase : Nat := 0

/-- The two settings of `INVALID_INSTRUCTION_POLICY` and `UNIMPLEMENTED_POLICY` (R7, D6). -/
inductive Policy where
  /-- The spec's `fatal`: the error is raised. -/
  | fatal
  /-- The spec's `continue`: the opcode is reported on the diagnostic stream and skipped. -/
  | reportAndContinue
  deriving DecidableEq, Repr

/-- The mnemonics a key of `PLACEHOLDER_OPCODES` can carry: the named-but-unimplemented instructions (R130), with
the six individual conditional jumps of the default table (R131; PRESUMED, log 6). -/
inductive Placeholder where
  | add | sub | div | cmp | and | or | xor | not | shl | shr | mod | inc | dec | call | ret | int | iret
  | jeq | jne | jgt | jlt | jle | jge | ld | st | nop | pra
  deriving DecidableEq, Repr

/-- The parameters the spec leaves open with a default (R7, R38): static, chosen before a run, changed by nothing. -/
structure Params where
  /-- `PLACEHOLDER_OPCODES`, a finite map from opcode byte to mnemonic (R7, R68, D5). -/
  placeholders : List (Byte × Placeholder)
  /-- `INVALID_INSTRUCTION_POLICY` (R7, R84). -/
  invalidInstructionPolicy : Policy
  /-- `UNIMPLEMENTED_POLICY` (R7, R85). -/
  unimplementedPolicy : Policy
  /-- `RESET_MEM`, the memory after reset (R6, R38). -/
  resetMem : Memory
  /-- `RESET_REG`, registers 0 to 6 after reset (R6, R38). -/
  resetRegs : Vector Byte 7
  deriving DecidableEq, Repr

/-- The mnemonic the map gives to an opcode byte, if the byte is a key (R66). -/
def Params.placeholderAt (cfg : Params) (op : Byte) : Option Placeholder := cfg.placeholders.lookup op

/-- `FL_LAYOUT`: where the condition codes "equal", "greater" and "less" stand in the flags register (R7, R26). -/
structure FlLayout where
  equal : Fin 8
  greater : Fin 8
  less : Fin 8
  deriving DecidableEq, Repr, Inhabited

/-- The flag layout is open and has no default (R26, D14): an uninterpreted constant, so that nothing can be proved
of its value (log 19). No step of the machine reads it. -/
opaque Config.flLayout : FlLayout

end Sys2Proof
end

