-- ==== Sys2Proof/Syntax.lean ====
section
/-! DEFINITION. The instruction set as syntax: one constructor per row of spec/opcode_table.json. -/

namespace Sys2Proof

/-- The seven defined instructions (R64), as the decoder names them. -/
inductive Defined where
  | halt | ldi | push | pop | prn | mul | jmp
  deriving DecidableEq, Repr

/-- An instruction as the decoder delivers it. A defined instruction carries its operand bytes WHOLE: a register
operand above 7 is an instruction that raises `InvalidRegister` when it executes, not a decoding failure (R21, R63).
A placeholder consumes no operand (R82); it carries the opcode byte it was fetched as, which is the information
value of the error it raises (R85) and which depends on the parameter `PLACEHOLDER_OPCODES` (log 23). -/
inductive Instr where
  /-- HALT (R86). -/
  | halt
  /-- LDI a,b: register operand `a`, immediate `b` (R100). -/
  | ldi (a b : Byte)
  /-- PUSH a (R101). -/
  | push (a : Byte)
  /-- POP a (R102). -/
  | pop (a : Byte)
  /-- PRN a (R103). -/
  | prn (a : Byte)
  /-- MUL a,b (R110). -/
  | mul (a b : Byte)
  /-- JMP a: `a` is the target address (R120). -/
  | jmp (a : Byte)
  /-- The placeholder ADD (R132). -/
  | add (op : Byte)
  /-- The placeholder SUB (R133). -/
  | sub (op : Byte)
  /-- The placeholder DIV (R134). -/
  | div (op : Byte)
  /-- The placeholder CMP (R135). -/
  | cmp (op : Byte)
  /-- The placeholder AND (R136). -/
  | and (op : Byte)
  /-- The placeholder OR (R137). -/
  | or (op : Byte)
  /-- The placeholder XOR (R138). -/
  | xor (op : Byte)
  /-- The placeholder NOT (R139). -/
  | not (op : Byte)
  /-- The placeholder SHL (R140). -/
  | shl (op : Byte)
  /-- The placeholder SHR (R141). -/
  | shr (op : Byte)
  /-- The placeholder MOD (R142). -/
  | mod (op : Byte)
  /-- The placeholder INC (R143). -/
  | inc (op : Byte)
  /-- The placeholder DEC (R144). -/
  | dec (op : Byte)
  /-- The placeholder CALL (R145). -/
  | call (op : Byte)
  /-- The placeholder RET (R146). -/
  | ret (op : Byte)
  /-- The placeholder INT (R147). -/
  | int (op : Byte)
  /-- The placeholder IRET (R148). -/
  | iret (op : Byte)
  /-- The placeholder JEQ (R149). -/
  | jeq (op : Byte)
  /-- The placeholder JNE (R150). -/
  | jne (op : Byte)
  /-- The placeholder JGT (R151). -/
  | jgt (op : Byte)
  /-- The placeholder JLT (R152). -/
  | jlt (op : Byte)
  /-- The placeholder JLE (R153). -/
  | jle (op : Byte)
  /-- The placeholder JGE (R154). -/
  | jge (op : Byte)
  /-- The placeholder LD (R155). -/
  | ld (op : Byte)
  /-- The placeholder ST (R156). -/
  | st (op : Byte)
  /-- The placeholder NOP (R157). -/
  | nop (op : Byte)
  /-- The placeholder PRA (R158). -/
  | pra (op : Byte)
  deriving DecidableEq, Repr

/-- The instruction a placeholder opcode decodes to. -/
def Placeholder.toInstr : Placeholder → Byte → Instr
  | .add, op => .add op
  | .sub, op => .sub op
  | .div, op => .div op
  | .cmp, op => .cmp op
  | .and, op => .and op
  | .or, op => .or op
  | .xor, op => .xor op
  | .not, op => .not op
  | .shl, op => .shl op
  | .shr, op => .shr op
  | .mod, op => .mod op
  | .inc, op => .inc op
  | .dec, op => .dec op
  | .call, op => .call op
  | .ret, op => .ret op
  | .int, op => .int op
  | .iret, op => .iret op
  | .jeq, op => .jeq op
  | .jne, op => .jne op
  | .jgt, op => .jgt op
  | .jlt, op => .jlt op
  | .jle, op => .jle op
  | .jge, op => .jge op
  | .ld, op => .ld op
  | .st, op => .st op
  | .nop, op => .nop op
  | .pra, op => .pra op

/-- The placeholder an instruction is, with its opcode byte; `none` for the seven defined instructions. -/
def Instr.placeholder? : Instr → Option (Placeholder × Byte)
  | .halt => none
  | .ldi _ _ => none
  | .push _ => none
  | .pop _ => none
  | .prn _ => none
  | .mul _ _ => none
  | .jmp _ => none
  | .add op => some (.add, op)
  | .sub op => some (.sub, op)
  | .div op => some (.div, op)
  | .cmp op => some (.cmp, op)
  | .and op => some (.and, op)
  | .or op => some (.or, op)
  | .xor op => some (.xor, op)
  | .not op => some (.not, op)
  | .shl op => some (.shl, op)
  | .shr op => some (.shr, op)
  | .mod op => some (.mod, op)
  | .inc op => some (.inc, op)
  | .dec op => some (.dec, op)
  | .call op => some (.call, op)
  | .ret op => some (.ret, op)
  | .int op => some (.int, op)
  | .iret op => some (.iret, op)
  | .jeq op => some (.jeq, op)
  | .jne op => some (.jne, op)
  | .jgt op => some (.jgt, op)
  | .jlt op => some (.jlt, op)
  | .jle op => some (.jle, op)
  | .jge op => some (.jge, op)
  | .ld op => some (.ld, op)
  | .st op => some (.st, op)
  | .nop op => some (.nop, op)
  | .pra op => some (.pra, op)

end Sys2Proof
end

