-- ==== Sys2Proof/WellFormed.lean ====
section
/-! DEFINITION. Which instructions are well formed under given parameters. -/

namespace Sys2Proof

/-- An instruction is well formed when it is one the decoder can deliver. Every operand byte of a defined
instruction is admitted (R63: a register operand above 7 executes, and raises). A placeholder is well formed when
the map `PLACEHOLDER_OPCODES` gives its mnemonic to its opcode byte (R66, R68). -/
def Instr.wellFormed (cfg : Params) : Instr → Bool
  | .halt => true
  | .ldi _ _ => true
  | .push _ => true
  | .pop _ => true
  | .prn _ => true
  | .mul _ _ => true
  | .jmp _ => true
  | .add op => cfg.placeholderAt op == some .add
  | .sub op => cfg.placeholderAt op == some .sub
  | .div op => cfg.placeholderAt op == some .div
  | .cmp op => cfg.placeholderAt op == some .cmp
  | .and op => cfg.placeholderAt op == some .and
  | .or op => cfg.placeholderAt op == some .or
  | .xor op => cfg.placeholderAt op == some .xor
  | .not op => cfg.placeholderAt op == some .not
  | .shl op => cfg.placeholderAt op == some .shl
  | .shr op => cfg.placeholderAt op == some .shr
  | .mod op => cfg.placeholderAt op == some .mod
  | .inc op => cfg.placeholderAt op == some .inc
  | .dec op => cfg.placeholderAt op == some .dec
  | .call op => cfg.placeholderAt op == some .call
  | .ret op => cfg.placeholderAt op == some .ret
  | .int op => cfg.placeholderAt op == some .int
  | .iret op => cfg.placeholderAt op == some .iret
  | .jeq op => cfg.placeholderAt op == some .jeq
  | .jne op => cfg.placeholderAt op == some .jne
  | .jgt op => cfg.placeholderAt op == some .jgt
  | .jlt op => cfg.placeholderAt op == some .jlt
  | .jle op => cfg.placeholderAt op == some .jle
  | .jge op => cfg.placeholderAt op == some .jge
  | .ld op => cfg.placeholderAt op == some .ld
  | .st op => cfg.placeholderAt op == some .st
  | .nop op => cfg.placeholderAt op == some .nop
  | .pra op => cfg.placeholderAt op == some .pra

end Sys2Proof
end

