-- ==== Sys2Proof/Decode.lean ====
section
/-! DEFINITION. The instruction decoder (R60 to R68), the default parameters, and the encoder. Total on any bytes;
what it cannot deliver as an instruction it rejects by name (`Decoded.missing`, `Decoded.unregistered`). -/

namespace Sys2Proof

/-- `opcode[7:6]`, the number of operand bytes; 0 to 3 (R61, R62). -/
def opcodeArity (op : Byte) : Nat := (op.extractLsb' 6 2).toNat

/-- `opcode[4]`, the control-flow bit: the instruction itself sets the program counter (R61). -/
def opcodeControlFlow (op : Byte) : Bool := op.getLsbD 4

/-- The opcode byte of a defined instruction (R64). -/
def definedOpcode : Defined → Byte
  | .halt => 0x01
  | .ldi => 0x82
  | .push => 0x45
  | .pop => 0x46
  | .prn => 0x47
  | .mul => 0xA2
  | .jmp => 0x54

/-- The table of R64, as the decoder searches it. -/
def definedTable : List (Byte × Defined) :=
  [(0x01, .halt), (0x82, .ldi), (0x45, .push), (0x46, .pop), (0x47, .prn), (0xA2, .mul), (0x54, .jmp)]

/-- The default of `PLACEHOLDER_OPCODES`: the table of R131. PRESUMED: the spec takes every byte value in it from
general knowledge (log 6). -/
def defaultPlaceholders : List (Byte × Placeholder) :=
  [(0xA0, .add), (0xA1, .sub), (0xA3, .div), (0xA7, .cmp), (0xA8, .and), (0xAA, .or), (0xAB, .xor)] ++
  [(0x69, .not), (0xAC, .shl), (0xAD, .shr), (0xA4, .mod), (0x65, .inc), (0x66, .dec)] ++
  [(0x50, .call), (0x11, .ret), (0x52, .int), (0x13, .iret)] ++
  [(0x55, .jeq), (0x56, .jne), (0x57, .jgt), (0x58, .jlt), (0x59, .jle), (0x5A, .jge)] ++
  [(0x83, .ld), (0x84, .st), (0x00, .nop), (0x48, .pra)]

/-- The parameters at their defaults (R7, R38, D5, D6, D9): the placeholder table of R131, invalid opcodes reported
and skipped, placeholders fatal, zeros at reset (log 4, log 6, log 7). -/
def defaultParams : Params where
  placeholders := defaultPlaceholders
  invalidInstructionPolicy := .reportAndContinue
  unimplementedPolicy := .fatal
  resetMem := []
  resetRegs := Vector.replicate 7 0x00

/-- `PLACEHOLDER_OPCODES` as the spec wants it: a map (no key twice) that contains none of the seven defined values
(R66, D5). -/
def Params.wf (cfg : Params) : Bool :=
  decide (cfg.placeholders.map Prod.fst).Nodup
    && cfg.placeholders.all fun row => (definedTable.lookup row.1).isNone

/-- The three classes of opcode bytes (R66). -/
inductive OpcodeClass where
  | defined (d : Defined)
  | placeholder (m : Placeholder)
  | unregistered
  deriving DecidableEq, Repr

/-- The decoder's total function on opcode bytes (R66). -/
def classify (cfg : Params) (op : Byte) : OpcodeClass :=
  match definedTable.lookup op with
  | some d => .defined d
  | none =>
    match cfg.placeholderAt op with
    | some m => .placeholder m
    | none => .unregistered

/-- What the decoder makes of the bytes at the program counter. -/
inductive Decoded where
  /-- An instruction, and the bytes after the ones it consumed. -/
  | instr (i : Instr) (rest : List Byte)
  /-- The byte at offset `k` from the opcode's address is needed and not there (R81, R82). -/
  | missing (k : Nat)
  /-- The opcode is neither a defined instruction nor a placeholder (R67). -/
  | unregistered (op : Byte)
  deriving DecidableEq, Repr

/-- Format F1: operand `a` (R60). -/
def takeOperand (mk : Byte → Instr) : List Byte → Decoded
  | [] => .missing 1
  | a :: rest => .instr (mk a) rest

/-- Format F2: operands `a` and `b`, `a` first (R60, R82). -/
def takeOperands (mk : Byte → Byte → Instr) : List Byte → Decoded
  | [] => .missing 1
  | [_] => .missing 2
  | a :: b :: rest => .instr (mk a b) rest

/-- The operands of a defined instruction, and the instruction they make (R63, R64). -/
def decodeDefined : Defined → List Byte → Decoded
  | .halt, rest => .instr .halt rest
  | .ldi, rest => takeOperands .ldi rest
  | .push, rest => takeOperand .push rest
  | .pop, rest => takeOperand .pop rest
  | .prn, rest => takeOperand .prn rest
  | .mul, rest => takeOperands .mul rest
  | .jmp, rest => takeOperand .jmp rest

/-- The decoder: the opcode is the first byte, its operands follow in ascending order (R47, R60, R66). The class of
the opcode is settled before any operand is looked at (R82, R177). -/
def decode (cfg : Params) : List Byte → Decoded
  | [] => .missing 0
  | op :: rest =>
    match classify cfg op with
    | .unregistered => .unregistered op
    | .placeholder m => .instr (m.toInstr op) rest
    | .defined d => decodeDefined d rest

/-- The first `n` bytes of a number, bits 7..0 first (R47: the first byte stands at the lowest address). -/
def bytesOf : Nat → Nat → List Byte
  | 0, _ => []
  | n + 1, w => BitVec.ofNat 8 w :: bytesOf n (w / 256)

/-- The bytes of a table word of `nbits` bits, continued with zeros to the longest instruction (3 bytes, R60). -/
def tableWordBytes (nbits w : Nat) : List Byte := bytesOf 3 (w % 2 ^ nbits)

/-- The instruction the decoder reads from a word numbered as spec/opcode_table.json numbers it, with the default
parameters (log 27). -/
def decodeTableWord (nbits w : Nat) : Option Instr :=
  match decode defaultParams (tableWordBytes nbits w) with
  | .instr i _ => some i
  | .missing _ => none
  | .unregistered _ => none

/-- The bytes of an instruction (R60, R64); a placeholder is its opcode byte alone, since it has no operands (R82). -/
def encode : Instr → List Byte
  | .halt => [0x01]
  | .ldi a b => [0x82, a, b]
  | .push a => [0x45, a]
  | .pop a => [0x46, a]
  | .prn a => [0x47, a]
  | .mul a b => [0xA2, a, b]
  | .jmp a => [0x54, a]
  | .add op => [op]
  | .sub op => [op]
  | .div op => [op]
  | .cmp op => [op]
  | .and op => [op]
  | .or op => [op]
  | .xor op => [op]
  | .not op => [op]
  | .shl op => [op]
  | .shr op => [op]
  | .mod op => [op]
  | .inc op => [op]
  | .dec op => [op]
  | .call op => [op]
  | .ret op => [op]
  | .int op => [op]
  | .iret op => [op]
  | .jeq op => [op]
  | .jne op => [op]
  | .jgt op => [op]
  | .jlt op => [op]
  | .jle op => [op]
  | .jge op => [op]
  | .ld op => [op]
  | .st op => [op]
  | .nop op => [op]
  | .pra op => [op]

end Sys2Proof
end

