-- ==== Sys2Proof/Machine/State.lean ====
section
/-! DEFINITION. The machine's state (R20) as plain data, the state after reset (R38), and the reasons a step can stop. -/

namespace Sys2Proof.Machine

/-- The run state (R27). -/
inductive Status where
  /-- Initialised, not yet started; the state after reset. -/
  | ready
  /-- Cycling fetch-decode-execute. -/
  | running
  /-- Terminal: HALT has executed or a fatal error has occurred. -/
  | halted
  deriving DecidableEq, Repr

/-- The six error kinds with their information values (R170). -/
inductive CoreError where
  /-- Code 1: the address that was out of bounds (R172). -/
  | outOfBounds (addr : Nat)
  /-- Code 2: the operand byte that names no register (R173). -/
  | invalidRegister (index : Byte)
  /-- Code 3: the unregistered opcode (R174). -/
  | invalidInstruction (op : Byte)
  /-- Code 4: the placeholder opcode (R175). -/
  | unimplementedInstruction (op : Byte)
  /-- Code 5: an ALU selector outside ADD, MUL, SUB, DIV (R116, R176). -/
  | unsupportedOperation
  /-- Code 6: the register index of a zero divisor (R115, R176). -/
  | divisionByZero (b : Byte)
  deriving DecidableEq, Repr

/-- The complete architectural state (R20), and the parameters of R7 and R38. -/
structure State where
  /-- `M`, the memory (R40). -/
  mem : Memory
  /-- The register file; register 7 is the stack pointer (R21, R22). -/
  x : Vector Byte 8
  /-- The program counter (R24). -/
  pc : Pc
  /-- The flags register (R26). -/
  fl : Byte
  /-- The run state (R27). -/
  status : Status
  /-- The error latch (R28). -/
  err : Option CoreError
  /-- The output stream, oldest first (R35). -/
  out : List Byte
  /-- The diagnostic stream, oldest first (R36). -/
  diag : List Byte
  /-- The parameters (R7, R38); nothing changes them (log 1). -/
  cfg : Params
  deriving DecidableEq, Repr

/-- The model never stops: every error of the spec is a next state in which the controller is halted and the error
latched (R11, R171), so no step has a fault to answer and this type has no constructor (log 28; safe). -/
inductive Fault where
  deriving DecidableEq, Repr

/-- Why an instruction has no meaning in the model. -/
inductive Refusal where
  /-- Raised by an arm of `exec` whose instruction has no meaning yet (safe); no arm does so. -/
  | notModelled (mnemonic : String)
  deriving DecidableEq, Repr

/-- The answer of a step or of an instruction's meaning. -/
abbrev Result := Host.Outcome State Fault Refusal

/-- The state after reset under given parameters (R38, R200): `RESET_MEM`, `RESET_REG` and `0xF4` in register 7,
everything else as the table of R38 has it. -/
def State.resetWith (cfg : Params) : State where
  mem := cfg.resetMem
  x := cfg.resetRegs.push Config.spReset
  pc := 0
  fl := 0x00
  status := .ready
  err := none
  out := []
  diag := []
  cfg := cfg

/-- The machine right after reset, with the default parameters (R38, R200; log 4). -/
def State.reset : State := State.resetWith defaultParams

end Sys2Proof.Machine
end

