-- ==== Sys2Proof/Machine/Ops.lean ====
section
/-! DEFINITION. The named operations over memory, registers and the controller's state: every read and write of a
piece of state goes through one of these. Raising an error (R11) is ONE operation here, `raise`. -/

namespace Sys2Proof

/-- What an address that memory does not list reads as: the reset contents, zero (R38, D9; log 5). -/
def Memory.unlisted : Byte := 0x00

/-- The byte at an address. -/
def Memory.read : Memory → Nat → Byte
  | [], _ => Memory.unlisted
  | (b, w) :: rest, a => if a = b then w else Memory.read rest a

/-- Store one byte, keeping the canonical form: rising addresses, and no entry for a byte equal to `unlisted`. -/
def Memory.write : Memory → Nat → Byte → Memory
  | [], a, v => if v = Memory.unlisted then [] else [(a, v)]
  | (b, w) :: rest, a, v =>
    if a < b then
      if v = Memory.unlisted then (b, w) :: rest else (a, v) :: (b, w) :: rest
    else if a = b then
      if v = Memory.unlisted then rest else (a, v) :: rest
    else (b, w) :: Memory.write rest a v

/-- Store consecutive bytes in ascending order (R48). -/
def Memory.writeAll : Memory → Nat → List Byte → Memory
  | m, _, [] => m
  | m, a, v :: vs => Memory.writeAll (Memory.write m a v) (a + 1) vs

/-- The canonical form from a lower bound on: addresses rise strictly and exist (R40), and no entry is listed in
vain. -/
def Memory.wfFrom : Nat → Memory → Bool
  | _, [] => true
  | lo, (a, v) :: rest =>
    decide (lo ≤ a) && decide (a < Config.memSize) && decide (v ≠ Memory.unlisted) && Memory.wfFrom (a + 1) rest

/-- Memory is in its canonical form, in which equal memories are equal lists. -/
def Memory.wf (m : Memory) : Bool := Memory.wfFrom 0 m

namespace Machine

/-- The result of an execute stage: the state it leaves, or the error it raises (R11). -/
abbrev Stage := Except CoreError State

/-- The memory cell at an address, `M[a]` (R10). -/
def byteAt (a : Nat) (s : State) : Byte := s.mem.read a

/-- `MemRead(addr, 1)`: a pure read; an address of 256 or more raises `OutOfBounds` (R10, R41, R44). -/
def memRead (addr : Nat) (s : State) : Except CoreError Byte :=
  if addr < Config.memSize then .ok (byteAt addr s) else .error (.outOfBounds addr)

/-- `MemWrite(addr, 1, v)`: one byte; an address of 256 or more raises `OutOfBounds` (R10, R41, R45). -/
def memWrite (addr : Nat) (v : Byte) (s : State) : Stage :=
  if addr < Config.memSize then .ok { s with mem := s.mem.write addr v } else .error (.outOfBounds addr)

/-- `x[i]`: no register is hard-wired (R10, R21). -/
def getReg (r : Fin 8) (s : State) : Byte := s.x[r]

/-- `x[i] <- v` (R10, R21). -/
def setReg (r : Fin 8) (v : Byte) (s : State) : State := { s with x := s.x.set r v }

/-- The stack pointer: register 7 and no copy of it (R22). -/
def sp (s : State) : Byte := getReg Config.spIndex s

/-- Write the stack pointer (R22). -/
def setSp (v : Byte) (s : State) : State := setReg Config.spIndex v s

/-- `pc <- t` (R10). -/
def setPc (t : Pc) (s : State) : State := { s with pc := t }

/-- `status <- Halted`, HALT's effect (R86). -/
def stop (s : State) : State := { s with status := .halted }

/-- `out <- out ++ [v]` (R10, R35). -/
def emitOut (v : Byte) (s : State) : State := { s with out := s.out ++ [v] }

/-- `diag <- diag ++ [op]` (R10, R36). -/
def emitDiag (op : Byte) (s : State) : State := { s with diag := s.diag ++ [op] }

/-- `raise E(info)`: TAKING AN ERROR. Nothing is saved and control goes nowhere: the controller halts, the error is
latched, and everything else, the program counter included, keeps the value it had when the cycle began (R11, R171,
R178; log 12). There is no return from it: only reset leaves Halted (R179). -/
def raise (e : CoreError) (s : State) : State := { s with status := .halted, err := some e }

/-- The program counter past an instruction with this opcode: `pc + 1 + arity`, a 9-bit sum that is kept and not
reduced to 8 bits (R25, R83; log 8). -/
def advance (op : Byte) (s : State) : State := setPc (s.pc + BitVec.ofNat 9 (1 + opcodeArity op)) s

/-- The end of a defined instruction's cycle, from the state `s` the cycle began in and its execute stage: an error
discards whatever the stage had written (R11); otherwise the controller advances the program counter unless the
opcode's control-flow bit is set (R83). -/
def finish (op : Byte) (s : State) : Stage → Result
  | .error e => .next (raise e s)
  | .ok s' => .next (if opcodeControlFlow op then s' else advance op s')

/-- `skip_or_fault` of R80: an opcode that is no defined instruction either raises its error or is reported on the
diagnostic stream and skipped by `1 + opcode[7:6]` bytes, whatever its control-flow bit (R84, R85; log 11). -/
def skipOrFault (e : CoreError) (policy : Policy) (op : Byte) (s : State) : Result :=
  match policy with
  | .fatal => .next (raise e s)
  | .reportAndContinue => .next (advance op (emitDiag op s))

/-- The behaviour of every placeholder opcode (R85, R130). -/
def unimplemented (op : Byte) (s : State) : Result :=
  skipOrFault (.unimplementedInstruction op) s.cfg.unimplementedPolicy op s

/-- The behaviour of an unregistered opcode (R84, R174). -/
def invalidOpcode (op : Byte) (s : State) : Result :=
  skipOrFault (.invalidInstruction op) s.cfg.invalidInstructionPolicy op s

/-- The bytes a cycle can fetch: those at `pc`, `pc + 1` and `pc + 2` that lie below address 256 (R42, R43, R82). Reads
are pure, so listing a byte that the instruction does not consume has no effect (R31, R44; log 9). -/
def fetchWindow (s : State) : List Byte :=
  [0, 1, 2].filterMap fun k => (memRead (s.pc.toNat + k) s).toOption

/-- The numeric code of an error kind (R170, D8; log 22). -/
def CoreError.code : CoreError → Nat
  | .outOfBounds _ => 1
  | .invalidRegister _ => 2
  | .invalidInstruction _ => 3
  | .unimplementedInstruction _ => 4
  | .unsupportedOperation => 5
  | .divisionByZero _ => 6

/-- The information value of an error, where it has one (R170, D8). -/
def CoreError.info : CoreError → Option Nat
  | .outOfBounds addr => some addr
  | .invalidRegister index => some index.toNat
  | .invalidInstruction op => some op.toNat
  | .unimplementedInstruction op => some op.toNat
  | .unsupportedOperation => none
  | .divisionByZero b => some b.toNat

/-- The numeric form of the error latch: code 0 means none (R28, R170). -/
def errCode (s : State) : Nat :=
  match s.err with
  | none => 0
  | some e => e.code

end Machine

end Sys2Proof
end

