-- ==== Sys2Proof/Machine/Operands.lean ====
section
/-! DEFINITION. The operand forms (R63): a register index, an 8-bit immediate, an 8-bit address. Each is a whole byte. -/

namespace Sys2Proof.Machine

/-- A `reg` operand, `RegCheck` included: the WHOLE byte is compared; a value above 7 raises `InvalidRegister` with
the byte as its information value, and is not masked to 3 bits (R10, R21, R63, R173). -/
def withReg (a : Byte) (k : Fin 8 → Stage) : Stage :=
  if h : a.toNat < 8 then k ⟨a.toNat, h⟩ else .error (.invalidRegister a)

/-- An `imm8` operand: the byte itself, neither extended nor scaled (R63). -/
def imm8 (b : Byte) : Byte := b

/-- An `addr8` operand: an absolute address, zero-extended to the program counter's width (R63, R120). -/
def addr8 (a : Byte) : Pc := a.zeroExtend 9

end Sys2Proof.Machine
end

