-- ==== Sys2Proof/Machine/Alu.lean ====
section
/-! DEFINITION. The ALU (R111 to R117) and the instruction that selects one of its operations, MUL (R110). -/

namespace Sys2Proof.Machine

/-- The ALU's operation selector. `unknown` stands for every value other than the four, so that the ALU is total over
a larger selector type (R111, R116). The decoder only ever drives `mul`. -/
inductive AluOp where
  | add | mul | sub | div
  | unknown (selector : Nat)
  deriving DecidableEq, Repr

/-- A computation on two registers, with the ALU's checks: both operands are register indices, `a` is checked before
`b`, both registers are read, and the result goes to register `a`; every check, the computation's own included,
precedes the write (R111; log 10). -/
def aluBinary (f : Byte → Byte → Except CoreError Byte) (a b : Byte) (s : State) : Stage :=
  withReg a fun ra => withReg b fun rb =>
    match f (getReg ra s) (getReg rb s) with
    | .error e => .error e
    | .ok r => .ok (setReg ra r s)

/-- DIV on two byte values: the unsigned floor quotient. A zero divisor raises, with the divisor's register index as the
information value (R115, R176; log 17). -/
def aluDivide (b : Byte) (p q : Byte) : Except CoreError Byte :=
  if q = 0 then .error (.divisionByZero b) else .ok (p / q)

/-- `apply(operation, a, b)`. Nothing but the low 8 bits of a sum, product or difference is recorded (R112, R113, R114,
R117). A selector outside the four operations raises `UnsupportedOperation`, whatever the operands are (R116; log 17). -/
def aluApply (op : AluOp) (a b : Byte) (s : State) : Stage :=
  match op with
  | .add => aluBinary (fun p q => .ok (p + q)) a b s
  | .mul => aluBinary (fun p q => .ok (p * q)) a b s
  | .sub => aluBinary (fun p q => .ok (p - q)) a b s
  | .div => aluBinary (aluDivide b) a b s
  | .unknown _ => .error .unsupportedOperation

/-- MUL a,b: `x[a] <- (x[a] * x[b]) mod 256` (R110, R113). -/
def execMul (a b : Byte) (s : State) : Result :=
  finish (definedOpcode .mul) s (aluApply .mul a b s)

end Sys2Proof.Machine
end

