-- ==== Sys2Proof/Machine/Control.lean ====
section
/-! DEFINITION. Control: HALT (R86) and JMP (R120). -/

namespace Sys2Proof.Machine

/-- HALT: `status <- Halted`; the controller still advances the program counter (R86, R83; log 15). -/
def execHalt (s : State) : Result :=
  finish (definedOpcode .halt) s (.ok (stop s))

/-- JMP a: the operand byte itself is the target; no register is read, and nothing is added afterwards, because the
opcode's control-flow bit is set (R120, R83; log 16). -/
def execJmp (a : Byte) (s : State) : Result :=
  finish (definedOpcode .jmp) s (.ok (setPc (addr8 a) s))

end Sys2Proof.Machine
end

