-- ==== Sys2Proof/Machine/DataStackOutput.lean ====
section
/-! DEFINITION. Data movement, stack and output: LDI, PUSH, POP, PRN (R100 to R103). -/

namespace Sys2Proof.Machine

/-- LDI a,b: `x[a] <- b` (R100). -/
def execLdi (a b : Byte) (s : State) : Result :=
  finish (definedOpcode .ldi) s (withReg a fun r => .ok (setReg r (imm8 b) s))

/-- PUSH a: decrement the stack pointer modulo 256, then store `x[a]`, read AFTER the decrement, at the new stack
pointer (R101; log 13, log 14). -/
def execPush (a : Byte) (s : State) : Result :=
  finish (definedOpcode .push) s (withReg a fun r =>
    let s' := setSp (sp s - 1) s
    memWrite (sp s').toNat (getReg r s') s')

/-- POP a: load from the stack pointer into `x[a]`, then increment the stack pointer, read AFTER that write, modulo
256 (R102; log 13, log 14). -/
def execPop (a : Byte) (s : State) : Result :=
  finish (definedOpcode .pop) s (withReg a fun r =>
    match memRead (sp s).toNat s with
    | .error e => .error e
    | .ok v =>
      let s' := setReg r v s
      .ok (setSp (sp s' + 1) s'))

/-- PRN a: append `x[a]` to the output stream (R103). -/
def execPrn (a : Byte) (s : State) : Result :=
  finish (definedOpcode .prn) s (withReg a fun r => .ok (emitOut (getReg r s) s))

end Sys2Proof.Machine
end

