-- ==== Sys2Proof/Machine/Placeholders.lean ====
section
/-! DEFINITION. The placeholder instructions (R130, R132 to R158). None computes anything: each raises
`UnimplementedInstruction` with its opcode byte, or, under the other setting of `UNIMPLEMENTED_POLICY`, is reported on
the diagnostic stream and skipped (R85). Not even NOP is a no-op (R157). -/

namespace Sys2Proof.Machine

/-- The placeholder ADD (R132). -/
def execAdd (op : Byte) (s : State) : Result := unimplemented op s

/-- The placeholder SUB (R133). -/
def execSub (op : Byte) (s : State) : Result := unimplemented op s

/-- The placeholder DIV (R134). -/
def execDiv (op : Byte) (s : State) : Result := unimplemented op s

/-- The placeholder CMP (R135). -/
def execCmp (op : Byte) (s : State) : Result := unimplemented op s

/-- The placeholder AND (R136). -/
def execAnd (op : Byte) (s : State) : Result := unimplemented op s

/-- The placeholder OR (R137). -/
def execOr (op : Byte) (s : State) : Result := unimplemented op s

/-- The placeholder XOR (R138). -/
def execXor (op : Byte) (s : State) : Result := unimplemented op s

/-- The placeholder NOT (R139). -/
def execNot (op : Byte) (s : State) : Result := unimplemented op s

/-- The placeholder SHL (R140). -/
def execShl (op : Byte) (s : State) : Result := unimplemented op s

/-- The placeholder SHR (R141). -/
def execShr (op : Byte) (s : State) : Result := unimplemented op s

/-- The placeholder MOD (R142). -/
def execMod (op : Byte) (s : State) : Result := unimplemented op s

/-- The placeholder INC (R143). -/
def execInc (op : Byte) (s : State) : Result := unimplemented op s

/-- The placeholder DEC (R144). -/
def execDec (op : Byte) (s : State) : Result := unimplemented op s

/-- The placeholder CALL (R145). -/
def execCall (op : Byte) (s : State) : Result := unimplemented op s

/-- The placeholder RET (R146). -/
def execRet (op : Byte) (s : State) : Result := unimplemented op s

/-- The placeholder INT (R147). -/
def execInt (op : Byte) (s : State) : Result := unimplemented op s

/-- The placeholder IRET (R148). -/
def execIret (op : Byte) (s : State) : Result := unimplemented op s

/-- The placeholder JEQ (R149). -/
def execJeq (op : Byte) (s : State) : Result := unimplemented op s

/-- The placeholder JNE (R150). -/
def execJne (op : Byte) (s : State) : Result := unimplemented op s

/-- The placeholder JGT (R151). -/
def execJgt (op : Byte) (s : State) : Result := unimplemented op s

/-- The placeholder JLT (R152). -/
def execJlt (op : Byte) (s : State) : Result := unimplemented op s

/-- The placeholder JLE (R153). -/
def execJle (op : Byte) (s : State) : Result := unimplemented op s

/-- The placeholder JGE (R154). -/
def execJge (op : Byte) (s : State) : Result := unimplemented op s

/-- The placeholder LD (R155). -/
def execLd (op : Byte) (s : State) : Result := unimplemented op s

/-- The placeholder ST (R156). -/
def execSt (op : Byte) (s : State) : Result := unimplemented op s

/-- The placeholder NOP (R157). -/
def execNop (op : Byte) (s : State) : Result := unimplemented op s

/-- The placeholder PRA (R158). -/
def execPra (op : Byte) (s : State) : Result := unimplemented op s

end Sys2Proof.Machine
end

