-- ==== Sys2Proof/Machine/Dispatch.lean ====
section
/-! DEFINITION. The dispatch: one arm per constructor of Instr, each one call of that instruction's meaning. -/

namespace Sys2Proof.Machine

def exec (i : Instr) (s : State) : Host.Outcome State Fault Refusal :=
  match i with
  | .halt => Sys2Proof.Machine.execHalt s
  | .ldi a b => Sys2Proof.Machine.execLdi a b s
  | .push a => Sys2Proof.Machine.execPush a s
  | .pop a => Sys2Proof.Machine.execPop a s
  | .prn a => Sys2Proof.Machine.execPrn a s
  | .mul a b => Sys2Proof.Machine.execMul a b s
  | .jmp a => Sys2Proof.Machine.execJmp a s
  | .add op => Sys2Proof.Machine.execAdd op s
  | .sub op => Sys2Proof.Machine.execSub op s
  | .div op => Sys2Proof.Machine.execDiv op s
  | .cmp op => Sys2Proof.Machine.execCmp op s
  | .and op => Sys2Proof.Machine.execAnd op s
  | .or op => Sys2Proof.Machine.execOr op s
  | .xor op => Sys2Proof.Machine.execXor op s
  | .not op => Sys2Proof.Machine.execNot op s
  | .shl op => Sys2Proof.Machine.execShl op s
  | .shr op => Sys2Proof.Machine.execShr op s
  | .mod op => Sys2Proof.Machine.execMod op s
  | .inc op => Sys2Proof.Machine.execInc op s
  | .dec op => Sys2Proof.Machine.execDec op s
  | .call op => Sys2Proof.Machine.execCall op s
  | .ret op => Sys2Proof.Machine.execRet op s
  | .int op => Sys2Proof.Machine.execInt op s
  | .iret op => Sys2Proof.Machine.execIret op s
  | .jeq op => Sys2Proof.Machine.execJeq op s
  | .jne op => Sys2Proof.Machine.execJne op s
  | .jgt op => Sys2Proof.Machine.execJgt op s
  | .jlt op => Sys2Proof.Machine.execJlt op s
  | .jle op => Sys2Proof.Machine.execJle op s
  | .jge op => Sys2Proof.Machine.execJge op s
  | .ld op => Sys2Proof.Machine.execLd op s
  | .st op => Sys2Proof.Machine.execSt op s
  | .nop op => Sys2Proof.Machine.execNop op s
  | .pra op => Sys2Proof.Machine.execPra op s

end Sys2Proof.Machine
end

