-- ==== Sys2Proof/Machine/Cycle.lean ====
section
/-! DEFINITION. One cycle of the controller (R80): fetch, decode, execute. -/

namespace Sys2Proof.Machine

/-- One cycle (R80). The bytes the cycle can fetch are decoded; an opcode or a needed operand that lies beyond address
255 raises `OutOfBounds` with its address (R81, R82); an unregistered opcode is reported or raises (R84); an
instruction executes, and its meaning ends the cycle. -/
def cycle (s : State) : Result :=
  match decode s.cfg (fetchWindow s) with
  | .missing k => .next (raise (.outOfBounds (s.pc.toNat + k)) s)
  | .unregistered op => invalidOpcode op s
  | .instr i _ => exec i s

/-- One step: a cycle while the controller is running. In Ready and in Halted no cycle happens and the machine stays
as it is, until the host acts (R27, R37, R80, R86; log 2). -/
def stepOrRest (s : State) : Result :=
  match s.status with
  | .ready => .next s
  | .running => cycle s
  | .halted => .next s

/-- Where a fetch word is stored: at the program counter, if the longest instruction fits there, else at address 0. -/
def fetchWordPc (s : State) : Pc := if s.pc.toNat + 3 ≤ Config.memSize then s.pc else 0

/-- `s` with the bytes of one instruction where the next cycle fetches, and the controller running (log 3). -/
def placeFetchWord (bytes : List Byte) (s : State) : State :=
  { s with pc := fetchWordPc s, status := .running, mem := s.mem.writeAll (fetchWordPc s).toNat bytes }

end Sys2Proof.Machine
end

