-- ==== Sys2Proof/Machine/Step.lean ====
section
/-! DEFINITION. The step function, and where the host stores an instruction so that the next step runs it. -/

namespace Sys2Proof.Machine

/-- One step of the machine (R80). -/
def step (s : State) : Host.Outcome State Fault Refusal := stepOrRest s

/-- `s` with the instruction of a table word stored where the next step fetches, and started: it stands for the host's
`load` and `start` (R33, R34, R202; log 3). -/
def State.withFetchWord (s : State) (nbits w : Nat) : State := placeFetchWord (tableWordBytes nbits w) s

end Sys2Proof.Machine
end

