-- ==== Sys2Proof/Machine/Flags.lean ====
section
/-! DEFINITION. The flags register. No instruction of the machine computes, writes or reads a flag: the compare-class
instruction and the conditional jumps are placeholders (R26, R111, R117). What the spec gives is the register itself
and that it holds three condition codes, at positions it leaves open (FL_LAYOUT, D14; log 19). -/

namespace Sys2Proof.Machine

/-- The condition code "equal" in the flags register (R26). -/
def flEqual (s : State) : Bool := s.fl.getLsbD Config.flLayout.equal

/-- The condition code "greater" in the flags register (R26). -/
def flGreater (s : State) : Bool := s.fl.getLsbD Config.flLayout.greater

/-- The condition code "less" in the flags register (R26). -/
def flLess (s : State) : Bool := s.fl.getLsbD Config.flLayout.less

end Sys2Proof.Machine
end

