-- ==== Sys2Proof/Machine/HostPort.lean ====
section
/-! DEFINITION. The host's side of the core (R33 to R37, R200): the commands load, start and reset, the status port,
and the purely observational forms of output and trace. Commands land between cycles and are no part of `step`
(R46; log 21). -/

namespace Sys2Proof.Machine

/-- What a `load` tells the host (R33, R48). -/
inductive LoadReply where
  /-- The bytes are in memory. -/
  | accepted
  /-- The controller is not in Ready: nothing happens. -/
  | ignored
  /-- More bytes than cells: `OutOfBounds`, reported to the host and not latched; nothing happens. -/
  | outOfBounds
  deriving DecidableEq, Repr

/-- `load(bytes)`: in Ready only; byte `i`, cut to its low 8 bits, goes to address `i`; all or nothing (R33, R45, R48;
log 20). -/
def load (bytes : List Nat) (s : State) : State × LoadReply :=
  if s.status ≠ .ready then (s, .ignored)
  else if Config.memSize < bytes.length then (s, .outOfBounds)
  else ({ s with mem := s.mem.writeAll Config.loadBase (bytes.map (BitVec.ofNat 8)) }, .accepted)

/-- `start`: Ready becomes Running; ignored otherwise (R34; log 20). -/
def start (s : State) : State := if s.status = .ready then { s with status := .running } else s

/-- The commands of the host (R33, R34, R200). -/
inductive Command where
  | load (bytes : List Nat)
  | start
  | reset
  deriving DecidableEq, Repr

/-- The effect of a command on the state. Reset leads from any state to the reset state and keeps only the parameters
(R39, R200). -/
def command : Command → State → State
  | .load bytes, s => (load bytes s).1
  | .start, s => start s
  | .reset, s => State.resetWith s.cfg

/-- What the host sees on the status port: run state and error latch at any time, the rest of the state once the run is
over (R37). -/
structure StatusView where
  status : Status
  err : Option CoreError
  final : Option State
  deriving DecidableEq, Repr

/-- The status port (R37). -/
def statusPort (s : State) : StatusView where
  status := s.status
  err := s.err
  final := if s.status = .halted then some s else none

/-- The host's rendering of one output byte: its unsigned decimal numeral, without the line end (R35, D17; log 25). -/
def renderByte (v : Byte) : String := toString v.toNat

/-- The lines the host prints, in program order (R35). -/
def renderOut (s : State) : List String := s.out.map renderByte

/-- One line of the optional trace: the program counter, the three bytes from it on (where memory has them) and the
registers, before a cycle (R187). Observation only. -/
structure TraceLine where
  pc : Pc
  bytes : List Byte
  regs : Vector Byte 8
  deriving DecidableEq, Repr

/-- The trace facility as a function of the state (R187). -/
def traceLine (s : State) : TraceLine where
  pc := s.pc
  bytes := fetchWindow s
  regs := s.x

end Sys2Proof.Machine
end

