-- ==== Sys2Proof/Safety.lean ====
section
/-! DEFINITION. The terms in which claims about whole runs are made: the events of the machine, the invariant of every
state a run can reach, and the controller's pseudocode (R80) transcribed beside the machine, so that the two can be
proved equal. -/

namespace Sys2Proof.Machine

/-- What can happen to the machine: a step of its own, or a command of the host (R27, R33, R34, R200). -/
inductive Event where
  | step
  | command (c : Command)
  deriving DecidableEq, Repr

/-- The machine's answer to an event. -/
def react : Event → State → Result
  | .step, s => step s
  | .command c, s => .next (command c s)

/-- The state is reached from `s₀` by events, in any number and order. -/
inductive ReachedFrom (s₀ : State) : State → Prop where
  | refl : ReachedFrom s₀ s₀
  | event {s t : State} (e : Event) : ReachedFrom s₀ s → react e s = .next t → ReachedFrom s₀ t

/-- What the state shows about a latched error: its information value lies in the range of R170's table and stands
where the error says, the policies allow the error, and the two ALU errors that no program reaches do not occur
(R172 to R176). -/
def errorExplained (s : State) : CoreError → Prop
  | .outOfBounds addr => 256 ≤ addr ∧ addr ≤ 259 ∧ s.pc.toNat ≤ addr ∧ addr ≤ s.pc.toNat + 2
  | .invalidRegister index =>
      8 ≤ index.toNat ∧ (byteAt (s.pc.toNat + 1) s = index ∨ byteAt (s.pc.toNat + 2) s = index)
  | .invalidInstruction op =>
      s.cfg.invalidInstructionPolicy = .fatal ∧ byteAt s.pc.toNat s = op ∧ classify s.cfg op = .unregistered
  | .unimplementedInstruction op =>
      s.cfg.unimplementedPolicy = .fatal ∧ byteAt s.pc.toNat s = op ∧ ∃ m, classify s.cfg op = .placeholder m
  | .unsupportedOperation => False
  | .divisionByZero _ => False

/-- The invariant of the machine: it holds after reset, and every event keeps it. -/
structure Inv (s : State) : Prop where
  /-- Memory is in its canonical form: only cells that exist (R40), none listed in vain. -/
  memory_canonical : s.mem.wf = true
  /-- So is the memory that a reset restores. -/
  reset_memory_canonical : s.cfg.resetMem.wf = true
  /-- The largest value the program counter can take (R24). -/
  pc_bounded : s.pc.toNat ≤ 259
  /-- An error is latched only in Halted (R28). -/
  error_only_halted : s.err ≠ none → s.status = .halted
  /-- A latched error is one that a program can cause, and the state shows its cause (R170 to R176). -/
  error_explained : ∀ e, s.err = some e → errorExplained s e
  /-- In Ready nothing but memory differs from the reset state: only the loader has acted (R27, R33, R48). -/
  ready_fresh : s.status = .ready → s = { State.resetWith s.cfg with mem := s.mem }
  /-- No instruction has written the flags register (R26). -/
  flags_reset : s.fl = 0x00

end Sys2Proof.Machine

namespace Sys2Proof.Reference

open Sys2Proof.Machine

/-- Register `i` by its number; used below 8 only. -/
def reg (s : State) (i : Nat) : Byte := s.x[i]?.getD 0x00

/-- Write register `i` by its number. -/
def setReg (s : State) (i : Nat) (v : Byte) : State := { s with x := s.x.setIfInBounds i v }

/-- The execute stages of the seven defined instructions, from the pseudocode of R86, R100 to R103, R110 and R120, in
natural-number arithmetic. -/
def stage (d : Defined) (a b : Byte) (s : State) : Stage :=
  match d with
  | .halt => .ok { s with status := .halted }
  | .ldi => if a.toNat > 7 then .error (.invalidRegister a) else .ok (setReg s a.toNat b)
  | .push =>
    if a.toNat > 7 then .error (.invalidRegister a)
    else
      let s' := setReg s 7 (BitVec.ofNat 8 ((reg s 7).toNat + 255))
      .ok { s' with mem := s'.mem.write (reg s' 7).toNat (reg s' a.toNat) }
  | .pop =>
    if a.toNat > 7 then .error (.invalidRegister a)
    else
      let s' := setReg s a.toNat (s.mem.read (reg s 7).toNat)
      .ok (setReg s' 7 (BitVec.ofNat 8 ((reg s' 7).toNat + 1)))
  | .prn =>
    if a.toNat > 7 then .error (.invalidRegister a) else .ok { s with out := s.out ++ [reg s a.toNat] }
  | .mul =>
    if a.toNat > 7 then .error (.invalidRegister a)
    else if b.toNat > 7 then .error (.invalidRegister b)
    else .ok (setReg s a.toNat (BitVec.ofNat 8 ((reg s a.toNat).toNat * (reg s b.toNat).toNat)))
  | .jmp => .ok { s with pc := BitVec.ofNat 9 a.toNat }

/-- `raise E(info)` of R11. -/
def raise (e : CoreError) (s : State) : State := { s with status := .halted, err := some e }

/-- `skip_or_fault` of R80. -/
def skipOrFault (e : CoreError) (policy : Policy) (op : Byte) (s : State) : State :=
  if policy = .fatal then raise e s
  else { s with diag := s.diag ++ [op], pc := BitVec.ofNat 9 (s.pc.toNat + 1 + op.toNat / 64) }

/-- The pseudocode of R80, line for line: opcode fetch, class, operand fetches in order, execute stage, program-counter
update. -/
def cycle (s : State) : State :=
  if s.pc.toNat > 255 then raise (.outOfBounds s.pc.toNat) s
  else
    let op := s.mem.read s.pc.toNat
    let arity := op.toNat / 64
    let cf := op.toNat / 16 % 2
    match classify s.cfg op with
    | .unregistered => skipOrFault (.invalidInstruction op) s.cfg.invalidInstructionPolicy op s
    | .placeholder _ => skipOrFault (.unimplementedInstruction op) s.cfg.unimplementedPolicy op s
    | .defined d =>
      if arity ≥ 1 ∧ s.pc.toNat + 1 > 255 then raise (.outOfBounds (s.pc.toNat + 1)) s
      else if arity = 2 ∧ s.pc.toNat + 2 > 255 then raise (.outOfBounds (s.pc.toNat + 2)) s
      else
        match stage d (s.mem.read (s.pc.toNat + 1)) (s.mem.read (s.pc.toNat + 2)) s with
        | .error e => raise e s
        | .ok s' =>
          if cf = 0 then { s' with pc := BitVec.ofNat 9 (s'.pc.toNat + 1 + arity) } else s'

end Sys2Proof.Reference
end

