-- ==== Sys2Proof/Certificates/Slice0/Obligations.lean ====
section
/-! DEFINITION. The statements to be proved about the model. Each docstring names the rule of spec/ it comes from; where
a clause rests on a choice that the spec marks as its own (a decision D<n> of 92_eei_decisions.md) or on a choice of
the model, the docstring says so and names the log entry. -/

open Sys2Proof Sys2Proof.Machine

/-! ### Encoding and decoding -/

/-- R64: the seven defined opcodes, each selected by all eight bits of the opcode byte, with the operands of its format;
no other byte decodes to a defined instruction. -/
def Obligations.DefinedOpcodesDecode : Prop :=
  ∀ (cfg : Params) (a b : Byte) (rest : List Byte),
    decode cfg (0b00000001 :: rest) = .instr .halt rest ∧
    decode cfg (0b10000010 :: a :: b :: rest) = .instr (.ldi a b) rest ∧
    decode cfg (0b01000101 :: a :: rest) = .instr (.push a) rest ∧
    decode cfg (0b01000110 :: a :: rest) = .instr (.pop a) rest ∧
    decode cfg (0b01000111 :: a :: rest) = .instr (.prn a) rest ∧
    decode cfg (0b10100010 :: a :: b :: rest) = .instr (.mul a b) rest ∧
    decode cfg (0b01010100 :: a :: rest) = .instr (.jmp a) rest ∧
    ∀ (op : Byte) (bytes : List Byte) (i : Instr) (tail : List Byte),
      op ∉ ([0x01, 0x82, 0x45, 0x46, 0x47, 0xA2, 0x54] : List Byte) →
      decode cfg (op :: bytes) = .instr i tail → i.placeholder? ≠ none

/-- R66: the decoder's three classes, under every value of the parameter `PLACEHOLDER_OPCODES`; its default contains none
of the seven defined values. -/
def Obligations.OpcodeClassesPartitionBytes : Prop :=
  defaultParams.wf = true ∧ ∀ (cfg : Params),
    classify cfg 0x01 = .defined .halt ∧ classify cfg 0x82 = .defined .ldi ∧ classify cfg 0x45 = .defined .push ∧
    classify cfg 0x46 = .defined .pop ∧ classify cfg 0x47 = .defined .prn ∧ classify cfg 0xA2 = .defined .mul ∧
    classify cfg 0x54 = .defined .jmp ∧
    ∀ op : Byte, op ∉ ([0x01, 0x82, 0x45, 0x46, 0x47, 0xA2, 0x54] : List Byte) →
      (∀ m, cfg.placeholderAt op = some m → classify cfg op = .placeholder m) ∧
      (cfg.placeholderAt op = none → classify cfg op = .unregistered)

/-- R65: for every defined opcode the arity read from its top two bits is the number of operand bytes its decoding
consumes, and bit 4 is set for JMP and for no other. -/
def Obligations.ArityBitsMatchOperandCount : Prop :=
  ∀ (cfg : Params) (op : Byte) (bytes : List Byte) (i : Instr) (rest : List Byte),
    decode cfg (op :: bytes) = .instr i rest → i.placeholder? = none →
      bytes.length = rest.length + op.toNat / 64 ∧ (op.getLsbD 4 = true ↔ ∃ a, i = .jmp a)

/-- Decode and encode agree: under every admissible placeholder map, the bytes of a well-formed instruction decode to
it, and what follows them is left over. -/
def Obligations.DecodeOfEncode : Prop :=
  ∀ (cfg : Params) (i : Instr) (rest : List Byte),
    cfg.wf = true → i.wellFormed cfg = true → decode cfg (encode i ++ rest) = .instr i rest

/-- The decoder delivers only well-formed instructions, and only from their own bytes. -/
def Obligations.EncodeOfDecode : Prop :=
  ∀ (cfg : Params) (bytes : List Byte) (i : Instr) (rest : List Byte),
    decode cfg bytes = .instr i rest → i.wellFormed cfg = true ∧ bytes = encode i ++ rest

/-- Bytes an instruction does not consume have no influence on its decoding (R82, R31; which bytes count is the spec's
decision D3, log 9). -/
def Obligations.UnconsumedBytesHaveNoInfluence : Prop :=
  ∀ (cfg : Params) (bytes : List Byte) (i : Instr) (rest rest' : List Byte),
    decode cfg bytes = .instr i rest → decode cfg (encode i ++ rest') = .instr i rest'

/-- The default placeholder bytes, written out from the spec's table, decode to their placeholders and consume no
operand. The byte values are PRESUMED (general knowledge, G1; log 6). -/
def Obligations.DefaultPlaceholderBytesDecode : Prop :=
  ∀ (cfg : Params) (rest : List Byte), cfg.placeholders = defaultPlaceholders →
    ∀ row ∈ ([(0b10100000, .add 0xA0), (0b10100001, .sub 0xA1), (0b10100011, .div 0xA3), (0b10100111, .cmp 0xA7),
        (0b10101000, .and 0xA8), (0b10101010, .or 0xAA), (0b10101011, .xor 0xAB), (0b01101001, .not 0x69)] ++
      [(0b10101100, .shl 0xAC), (0b10101101, .shr 0xAD), (0b10100100, .mod 0xA4), (0b01100101, .inc 0x65),
        (0b01100110, .dec 0x66), (0b01010000, .call 0x50), (0b00010001, .ret 0x11), (0b01010010, .int 0x52)] ++
      [(0b00010011, .iret 0x13), (0b01010101, .jeq 0x55), (0b01010110, .jne 0x56), (0b01010111, .jgt 0x57),
        (0b01011000, .jlt 0x58), (0b01011001, .jle 0x59), (0b01011010, .jge 0x5A), (0b10000011, .ld 0x83)] ++
      [(0b10000100, .st 0x84), (0b00000000, .nop 0x00), (0b01001000, .pra 0x48)] : List (Byte × Instr)),
      decode cfg (row.1 :: rest) = .instr row.2 rest

/-! ### The step -/

/-- A step in Running runs the instruction that the bytes at the program counter decode to; the step adds nothing
around `exec` (R80). -/
def Obligations.StepRunsDecodedInstruction : Prop :=
  ∀ (s : State) (i : Instr) (rest : List Byte),
    s.status = .running → decode s.cfg (fetchWindow s) = .instr i rest → step s = exec i s

/-- The same in terms of memory: a well-formed instruction whose bytes stand from the program counter on, below address
256, is what the step runs; no byte after them matters (R60, R80, R82). -/
def Obligations.StepRunsInstructionInMemory : Prop :=
  ∀ (s : State) (i : Instr),
    s.status = .running → s.cfg.wf = true → i.wellFormed s.cfg = true →
    s.pc.toNat + (encode i).length ≤ 256 →
    (∀ (k : Nat) (h : k < (encode i).length), byteAt (s.pc.toNat + k) s = (encode i)[k]) →
    step s = exec i s

/-- Outside Running no cycle happens, and the machine stays as it is (R80, R37). That `step` answers the unchanged state
there is the model's choice (log 2). -/
def Obligations.NoCycleOutsideRunning : Prop :=
  ∀ s : State, s.status ≠ .running → step s = .next s

/-- The step is the controller's pseudocode (R80) with the execute stages of R86, R100 to R103, R110 and R120, which is
transcribed in natural-number arithmetic beside the machine. It takes in the spec's own decisions D1 (log 18), D2
(log 8), D3 (log 9), D4 (log 11), D5 (log 6), D6 (log 7), D7 (log 12), D10 (log 13), D11 (log 14), D12 (log 15), D13
(log 16), D18 and D19 (log 10). -/
def Obligations.StepFollowsDispatchAlgorithm : Prop :=
  ∀ s : State, s.status = .running → step s = .next (Reference.cycle s)

/-- Every step, and every instruction in every state, answers a next state. In Running this is R80 with R171: an error is
a transition to Halted (that it is no fault of the model is log 28, the model's choice). In Ready and Halted it rests on
log 2, and for `exec` in states that no cycle reaches on log 24, both the model's choices. -/
def Obligations.EveryStepAnswersNext : Prop :=
  (∀ s : State, ∃ t, step s = .next t) ∧ ∀ (i : Instr) (s : State), ∃ t, exec i s = .next t

/-- R81, and the spec's decision D2 (trap, no wrap; log 8): an opcode fetch at 256 or above raises `OutOfBounds` with the
program counter as its information value. -/
def Obligations.OpcodeFetchBeyondMemoryRaises : Prop :=
  ∀ s : State, s.status = .running → 256 ≤ s.pc.toNat →
    step s = .next { s with status := .halted, err := some (.outOfBounds s.pc.toNat) }

/-- R82, and the spec's decision D3 (log 9): a defined instruction whose needed operand lies beyond address 255 raises
`OutOfBounds` with that address, before it has any effect and before its register operands are looked at; HALT, which
needs none, executes at address 255. -/
def Obligations.MissingOperandRaises : Prop :=
  ∀ (s : State) (d : Defined), s.status = .running → s.pc.toNat < 256 → byteAt s.pc.toNat s = definedOpcode d →
    (s.pc.toNat = 255 → d ≠ .halt →
      step s = .next { s with status := .halted, err := some (.outOfBounds 256) }) ∧
    (s.pc.toNat = 254 → (d = .ldi ∨ d = .mul) →
      step s = .next { s with status := .halted, err := some (.outOfBounds 256) }) ∧
    (d = .halt → step s = exec .halt s)

/-- R84, and the spec's decisions D4 (how far the program counter advances; log 11) and D6 (the policies; log 7): an
unregistered opcode, at any address that exists, is reported and skipped, or raises, and its operands are not looked
at. -/
def Obligations.UnregisteredOpcodeReportedOrRaised : Prop :=
  ∀ (s : State) (op : Byte), s.status = .running → s.pc.toNat < 256 → byteAt s.pc.toNat s = op →
    classify s.cfg op = .unregistered →
    (s.cfg.invalidInstructionPolicy = .reportAndContinue →
      step s = .next { s with diag := s.diag ++ [op], pc := s.pc + BitVec.ofNat 9 (1 + op.toNat / 64) }) ∧
    (s.cfg.invalidInstructionPolicy = .fatal →
      step s = .next { s with status := .halted, err := some (.invalidInstruction op) })

/-- R85, and the spec's decision D6 (log 7), for every value of `PLACEHOLDER_OPCODES`: a placeholder opcode, at any
address that exists, raises or is reported and skipped, and its operands are not looked at. -/
def Obligations.PlaceholderOpcodeRaisedOrReported : Prop :=
  ∀ (s : State) (op : Byte) (m : Placeholder), s.status = .running → s.pc.toNat < 256 → byteAt s.pc.toNat s = op →
    classify s.cfg op = .placeholder m →
    (s.cfg.unimplementedPolicy = .fatal →
      step s = .next { s with status := .halted, err := some (.unimplementedInstruction op) }) ∧
    (s.cfg.unimplementedPolicy = .reportAndContinue →
      step s = .next { s with diag := s.diag ++ [op], pc := s.pc + BitVec.ofNat 9 (1 + op.toNat / 64) })

/-- The rows of R132 to R158 with the default map: byte and skip length of each placeholder, written out from the spec.
The byte values are PRESUMED (general knowledge, G1; log 6); the policies are D6 (log 7). -/
def Obligations.DefaultPlaceholderRows : Prop :=
  ∀ row ∈ ([(0xA0, 3), (0xA1, 3), (0xA3, 3), (0xA7, 3), (0xA8, 3), (0xAA, 3), (0xAB, 3), (0x69, 2), (0xAC, 3)] ++
      [(0xAD, 3), (0xA4, 3), (0x65, 2), (0x66, 2), (0x50, 2), (0x11, 1), (0x52, 2), (0x13, 1), (0x55, 2)] ++
      [(0x56, 2), (0x57, 2), (0x58, 2), (0x59, 2), (0x5A, 2), (0x83, 3), (0x84, 3), (0x00, 1), (0x48, 2)] :
        List (Byte × Nat)),
    ∀ s : State, s.status = .running → s.pc.toNat < 256 → s.cfg.placeholders = defaultPlaceholders →
      byteAt s.pc.toNat s = row.1 →
      (s.cfg.unimplementedPolicy = .fatal →
        step s = .next { s with status := .halted, err := some (.unimplementedInstruction row.1) }) ∧
      (s.cfg.unimplementedPolicy = .reportAndContinue →
        step s = .next { s with diag := s.diag ++ [row.1], pc := s.pc + BitVec.ofNat 9 row.2 })

/-! ### What the instructions do -/

/-- R86; that the HALT cycle advances the program counter is the spec's decision D12 (log 15). -/
def Obligations.HaltCompletes : Prop :=
  ∀ s : State, exec .halt s = .next { s with status := .halted, pc := s.pc + 1 }

/-- R100; that the operand names the register file is the spec's decision D1 (log 18). -/
def Obligations.LdiWritesImmediate : Prop :=
  ∀ (a b : Byte) (s : State) (ha : a.toNat < 8),
    exec (.ldi a b) s = .next { s with x := s.x.set a.toNat b, pc := s.pc + 3 }

/-- R101; the wrap at 0 is the spec's decision D10 (log 13), and PUSH R7 storing the decremented pointer is D11
(log 14). -/
def Obligations.PushStoresAtDecrementedPointer : Prop :=
  ∀ (a : Byte) (s : State) (ha : a.toNat < 8),
    ∃ t, exec (.push a) s = .next t ∧
      t = { s with
        x := s.x.set 7 (s.x[7] - 1)
        mem := s.mem.write (s.x[7] - 1).toNat (if a.toNat = 7 then s.x[7] - 1 else s.x[a.toNat])
        pc := s.pc + 2 } ∧
      t.x[7].toNat = (s.x[7].toNat + 255) % 256 ∧
      (s.mem.wf = true → byteAt t.x[7].toNat t = if a.toNat = 7 then s.x[7] - 1 else s.x[a.toNat])

/-- R102; the wrap at 255 is the spec's decision D10 (log 13), and POP R7 ending at the popped byte plus 1 is D11
(log 14). -/
def Obligations.PopLoadsThenIncrements : Prop :=
  ∀ (a : Byte) (s : State) (ha : a.toNat < 8),
    exec (.pop a) s = .next { s with
      x := (s.x.set a.toNat (byteAt s.x[7].toNat s)).set 7
        (if a.toNat = 7 then byteAt s.x[7].toNat s + 1 else s.x[7] + 1)
      pc := s.pc + 2 }

/-- R103, the whole rule, from the fetch of `47 a` on: with the opcode at 255 its operand is missing; a register index
above 7 raises and prints nothing; otherwise the register's value is appended to the output and nothing else but the
program counter changes. -/
def Obligations.PrnAppendsRegister : Prop :=
  (∀ (a : Byte) (s : State) (ha : a.toNat < 8),
    exec (.prn a) s = .next { s with out := s.out ++ [s.x[a.toNat]], pc := s.pc + 2 }) ∧
  ∀ s : State, s.status = .running → byteAt s.pc.toNat s = 0b01000111 →
    (s.pc.toNat = 255 → step s = .next { s with status := .halted, err := some (.outOfBounds 256) }) ∧
    (s.pc.toNat < 255 → ∀ a, byteAt (s.pc.toNat + 1) s = a →
      (8 ≤ a.toNat → step s = .next { s with status := .halted, err := some (.invalidRegister a) }) ∧
      ∀ ha : a.toNat < 8,
        step s = .next { s with out := s.out ++ [s.x[a.toNat]], pc := s.pc + 2 } ∧
        renderByte s.x[a.toNat] = toString s.x[a.toNat].toNat)

/-- R110 with R113: the low byte of the product, in register `a`; both registers are read before the write. -/
def Obligations.MulWritesLowByteOfProduct : Prop :=
  ∀ (a b : Byte) (s : State) (ha : a.toNat < 8) (hb : b.toNat < 8),
    exec (.mul a b) s = .next { s with
      x := s.x.set a.toNat (BitVec.ofNat 8 (s.x[a.toNat].toNat * s.x[b.toNat].toNat % 256))
      pc := s.pc + 3 }

/-- R120; that the operand is the target address itself is the spec's decision D13 (log 16). Every operand byte is a
target; no register is read and nothing is added to the target. -/
def Obligations.JmpSetsProgramCounter : Prop :=
  ∀ (a : Byte) (s : State), ∃ t, exec (.jmp a) s = .next t ∧ t = { s with pc := t.pc } ∧ t.pc.toNat = a.toNat

/-- R130: every placeholder instruction raises `UnimplementedInstruction` with its opcode byte and writes nothing else;
under the other policy it is reported and skipped. All 27 are named. -/
def Obligations.PlaceholdersRaiseUnimplemented : Prop :=
  ∀ (op : Byte) (s : State),
    ∀ i ∈ ([.add op, .sub op, .div op, .cmp op, .and op, .or op, .xor op, .not op, .shl op] ++
        [.shr op, .mod op, .inc op, .dec op, .call op, .ret op, .int op, .iret op, .jeq op] ++
        [.jne op, .jgt op, .jlt op, .jle op, .jge op, .ld op, .st op, .nop op, .pra op] : List Instr),
      (s.cfg.unimplementedPolicy = .fatal →
        exec i s = .next { s with status := .halted, err := some (.unimplementedInstruction op) }) ∧
      (s.cfg.unimplementedPolicy = .reportAndContinue →
        exec i s = .next { s with diag := s.diag ++ [op], pc := s.pc + BitVec.ofNat 9 (1 + op.toNat / 64) })

/-- R173: a register operand above 7 raises `InvalidRegister` with the whole byte, before anything is written; the order
of MUL's two checks is the spec's decision D18 (log 10). JMP never raises it. -/
def Obligations.InvalidRegisterRaises : Prop :=
  (∀ (a : Byte) (s : State), 8 ≤ a.toNat →
    (∀ b, exec (.ldi a b) s = .next { s with status := .halted, err := some (.invalidRegister a) }) ∧
    exec (.push a) s = .next { s with status := .halted, err := some (.invalidRegister a) } ∧
    exec (.pop a) s = .next { s with status := .halted, err := some (.invalidRegister a) } ∧
    exec (.prn a) s = .next { s with status := .halted, err := some (.invalidRegister a) } ∧
    ∀ b, exec (.mul a b) s = .next { s with status := .halted, err := some (.invalidRegister a) }) ∧
  (∀ (a b : Byte) (s : State), a.toNat < 8 → 8 ≤ b.toNat →
    exec (.mul a b) s = .next { s with status := .halted, err := some (.invalidRegister b) }) ∧
  ∀ (a : Byte) (s t : State), exec (.jmp a) s = .next t → t.err = s.err ∧ t.status = s.status

/-! ### The ALU -/

/-- R111 for the four operations: the ALU checks register `a`, then register `b` (the order is the spec's decision D18,
log 10), and otherwise writes one 8-bit result, computed from `x[a]` and `x[b]` alone, to register `a` and nothing
anywhere else, the flags included, or, on a zero divisor of DIV, raises with no change. R116 for any other selector:
`UnsupportedOperation`, whatever the operands are (the spec's decision D15, log 17). That the operands name the register
file is D1 (log 18). -/
def Obligations.AluAppliesOrLeavesState : Prop :=
  ∀ (op : AluOp) (a b : Byte) (s : State),
    ((∃ n, op = .unknown n) → aluApply op a b s = .error .unsupportedOperation) ∧
    ((∀ n, op ≠ .unknown n) →
      (8 ≤ a.toNat → aluApply op a b s = .error (.invalidRegister a)) ∧
      (a.toNat < 8 → 8 ≤ b.toNat → aluApply op a b s = .error (.invalidRegister b)) ∧
      ∀ (ha : a.toNat < 8) (hb : b.toNat < 8),
        (∀ t, aluApply op a b s = .ok t →
          ∃ r : Byte, t = { s with x := s.x.set a.toNat r } ∧
            ∀ (s' : State), s'.x[a.toNat] = s.x[a.toNat] → s'.x[b.toNat] = s.x[b.toNat] →
              aluApply op a b s' = .ok { s' with x := s'.x.set a.toNat r }) ∧
        ((∃ t, aluApply op a b s = .ok t) ∨
          (op = .div ∧ s.x[b.toNat] = 0 ∧ aluApply op a b s = .error (.divisionByZero b))))

/-- R113: the ALU's MUL, which is the operation the MUL instruction selects, keeps the low 8 bits of the product, and
they are the same whether the operands are read as unsigned or as two's-complement bytes. -/
def Obligations.AluMulKeepsLowByte : Prop :=
  ∀ (a b : Byte) (s : State) (ha : a.toNat < 8) (hb : b.toNat < 8),
    aluApply .mul a b s =
      .ok { s with x := s.x.set a.toNat (BitVec.ofNat 8 (s.x[a.toNat].toNat * s.x[b.toNat].toNat % 256)) } ∧
    (∀ t, aluApply .mul a b s = .ok t → exec (.mul a b) s = .next { t with pc := s.pc + 3 }) ∧
    BitVec.ofNat 8 (s.x[a.toNat].toNat * s.x[b.toNat].toNat % 256) =
      BitVec.ofInt 8 (s.x[a.toNat].toInt * s.x[b.toNat].toInt)

/-- R112 for ADD; SUB, DIV and the unknown selector are the spec's decision D15 (R114, R115, R116; log 17). An unknown
selector raises whatever the operands are, register indices above 7 included. No defined opcode selects any of these. -/
def Obligations.AluSumDifferenceQuotient : Prop :=
  (∀ (a b : Byte) (s : State) (ha : a.toNat < 8) (hb : b.toNat < 8),
    aluApply .add a b s =
      .ok { s with x := s.x.set a.toNat (BitVec.ofNat 8 ((s.x[a.toNat].toNat + s.x[b.toNat].toNat) % 256)) } ∧
    aluApply .sub a b s =
      .ok { s with x := s.x.set a.toNat (BitVec.ofNat 8 ((s.x[a.toNat].toNat + 256 - s.x[b.toNat].toNat) % 256)) } ∧
    (s.x[b.toNat].toNat ≠ 0 → aluApply .div a b s =
      .ok { s with x := s.x.set a.toNat (BitVec.ofNat 8 (s.x[a.toNat].toNat / s.x[b.toNat].toNat)) }) ∧
    (s.x[b.toNat].toNat = 0 → aluApply .div a b s = .error (.divisionByZero b))) ∧
  ∀ (n : Nat) (a b : Byte) (s : State), aluApply (.unknown n) a b s = .error .unsupportedOperation

/-! ### Frames -/

/-- What LDI and MUL leave unchanged: every register but `a`, the flags, both streams, the parameters and every byte of
memory; run state and error latch too, unless a register operand is invalid (R100, R110, R23, R26). -/
def Obligations.LdiMulFrame : Prop :=
  ∀ (a b : Byte) (i : Instr) (s t : State), (i = .ldi a b ∨ i = .mul a b) → exec i s = .next t →
    (∀ r : Fin 8, r.val ≠ a.toNat → getReg r t = getReg r s) ∧
    t.fl = s.fl ∧ t.out = s.out ∧ t.diag = s.diag ∧ t.cfg = s.cfg ∧
    (∀ c, byteAt c t = byteAt c s) ∧
    ((t.status = s.status ∧ t.err = s.err) ∨
      ∃ e, (e = a ∨ i = .mul a b ∧ e = b) ∧ 8 ≤ e.toNat ∧ t.status = .halted ∧ t.err = some (.invalidRegister e) ∧
        t.x = s.x ∧ t.pc = s.pc)

/-- What PUSH leaves unchanged: every register but the stack pointer, the flags, both streams, the parameters, and every
byte of memory but the one at the address its meaning stores to, the decremented stack pointer; with an invalid register
operand, everything but run state and error latch (R101, R23, R26). -/
def Obligations.PushFrame : Prop :=
  ∀ (a : Byte) (s t : State), exec (.push a) s = .next t →
    (∀ r : Fin 8, r ≠ Config.spIndex → getReg r t = getReg r s) ∧
    t.fl = s.fl ∧ t.out = s.out ∧ t.diag = s.diag ∧ t.cfg = s.cfg ∧
    (∀ addr, addr = (sp (setSp (sp s - 1) s)).toNat → ∀ c, c ≠ addr → byteAt c t = byteAt c s) ∧
    (a.toNat < 8 → t.status = s.status ∧ t.err = s.err) ∧
    (8 ≤ a.toNat → t.x = s.x ∧ t.pc = s.pc ∧ ∀ c, byteAt c t = byteAt c s)

/-- What POP leaves unchanged: every register but `a` and the stack pointer, the flags, both streams, the parameters and
every byte of memory, the popped one included; with an invalid register operand, everything but run state and error
latch (R102, R23, R26). -/
def Obligations.PopFrame : Prop :=
  ∀ (a : Byte) (s t : State), exec (.pop a) s = .next t →
    (∀ r : Fin 8, r ≠ Config.spIndex → r.val ≠ a.toNat → getReg r t = getReg r s) ∧
    t.fl = s.fl ∧ t.out = s.out ∧ t.diag = s.diag ∧ t.cfg = s.cfg ∧
    (∀ c, byteAt c t = byteAt c s) ∧
    (a.toNat < 8 → t.status = s.status ∧ t.err = s.err) ∧
    (8 ≤ a.toNat → t.x = s.x ∧ t.pc = s.pc)

/-- What HALT, PRN and JMP leave unchanged: every register, the flags, the diagnostic stream, the parameters and every
byte of memory; HALT and JMP the output stream too; PRN and JMP run state and error latch, unless PRN's register operand
is invalid; HALT the error latch (R86, R103, R120, R23, R26). -/
def Obligations.HaltPrnJmpFrame : Prop :=
  ∀ (a : Byte) (i : Instr) (s t : State), (i = .halt ∨ i = .prn a ∨ i = .jmp a) → exec i s = .next t →
    (∀ r : Fin 8, getReg r t = getReg r s) ∧
    t.fl = s.fl ∧ t.diag = s.diag ∧ t.cfg = s.cfg ∧ (∀ c, byteAt c t = byteAt c s) ∧
    (i ≠ .prn a → t.out = s.out ∧ t.err = s.err) ∧
    (i = .jmp a → t.status = s.status) ∧
    (i = .prn a → a.toNat < 8 → t.status = s.status ∧ t.err = s.err) ∧
    (i = .prn a → 8 ≤ a.toNat → t.out = s.out ∧ t.pc = s.pc)

/-- What every placeholder leaves unchanged: every register, the flags, the output stream, the parameters and every byte
of memory; under the fatal policy the program counter and the diagnostic stream, under the other one run state and error
latch (R130, R85). -/
def Obligations.PlaceholderFrame : Prop :=
  ∀ (m : Placeholder) (op : Byte) (i : Instr) (s t : State), i.placeholder? = some (m, op) → exec i s = .next t →
    (∀ r : Fin 8, getReg r t = getReg r s) ∧
    t.fl = s.fl ∧ t.out = s.out ∧ t.cfg = s.cfg ∧ (∀ c, byteAt c t = byteAt c s) ∧
    (s.cfg.unimplementedPolicy = .fatal → t.pc = s.pc ∧ t.diag = s.diag) ∧
    (s.cfg.unimplementedPolicy = .reportAndContinue → t.status = s.status ∧ t.err = s.err)

/-! ### Rules of the whole machine -/

/-- R26: no instruction writes the flags register and none reads it: whatever the step does, it does the same under every
value of the flags, and leaves that value; and no step changes the parameters (log 1). -/
def Obligations.FlagsNeitherReadNorWritten : Prop :=
  ∀ (s t : State) (v : Byte), step s = .next t →
    t.fl = s.fl ∧ t.cfg = s.cfg ∧ step { s with fl := v } = .next { t with fl := v }

/-- R43, R55 (and conflict C6): PUSH is the only instruction that changes a byte of memory, and it changes no byte but
the one at the decremented stack pointer. -/
def Obligations.OnlyPushWritesMemory : Prop :=
  ∀ (s t : State) (c : Nat), step s = .next t → byteAt c t ≠ byteAt c s →
    s.status = .running ∧ c = (s.x[7] - 1).toNat ∧
    ∃ a rest, decode s.cfg (fetchWindow s) = .instr (.push a) rest ∧ a.toNat < 8

/-- R35, R36: both streams only grow; PRN is the only writer of the output stream, and only an opcode that is no defined
instruction is reported on the diagnostic stream, once. -/
def Obligations.StreamsOnlyGrow : Prop :=
  ∀ s t : State, step s = .next t →
    (t.out = s.out ∨ ∃ (a : Byte) (rest : List Byte) (ha : a.toNat < 8),
      decode s.cfg (fetchWindow s) = .instr (.prn a) rest ∧ t.out = s.out ++ [s.x[a.toNat]]) ∧
    (t.diag = s.diag ∨
      (t.diag = s.diag ++ [byteAt s.pc.toNat s] ∧ ∀ d, classify s.cfg (byteAt s.pc.toNat s) ≠ .defined d))

/-- R27: the run state's transitions are exactly these; load acts in Ready only and cycles happen in Running only. Three
clauses rest on choices: that a fatal error writes nothing else is the spec's decision D7 (log 12), that a load outside
Ready is ignored is D23 (log 20), and that a step outside Running answers the unchanged state is the model's choice
(log 2). That a step which latches an error halts the machine is `ErrorsArePrecise`. -/
def Obligations.StatusTransitionsAreExactly : Prop :=
  State.reset.status = .ready ∧
  (∀ (e : Event) (s t : State), react e s = .next t → t.status ≠ s.status →
    (e = .command .start ∧ s.status = .ready ∧ t.status = .running) ∨
    (e = .step ∧ s.status = .running ∧ t.status = .halted ∧
      ((∃ rest, decode s.cfg (fetchWindow s) = .instr .halt rest) ∨
        ∃ er, t = { s with status := .halted, err := some er })) ∨
    (e = .command .reset ∧ t.status = .ready)) ∧
  (∀ s : State, s.status = .ready → (command .start s).status = .running) ∧
  (∀ (s : State) (rest : List Byte), s.status = .running → decode s.cfg (fetchWindow s) = .instr .halt rest →
    ∃ t, step s = .next t ∧ t.status = .halted) ∧
  (∀ s : State, (command .reset s).status = .ready) ∧
  (∀ (s : State) (bytes : List Nat), s.status ≠ .ready → command (.load bytes) s = s) ∧
  (∀ s : State, s.status ≠ .running → step s = .next s)

/-- Halted is terminal: of all events only reset changes anything there (R27, R37, R179; that load and start are ignored
is the spec's decision D23, D24, log 20; that a step answers the unchanged state is the model's choice, log 2). -/
def Obligations.HaltedLeftOnlyByReset : Prop :=
  ∀ (e : Event) (s t : State), s.status = .halted → react e s = .next t → e = .command .reset ∨ t = s

/-- R171, and the spec's decision D7 (log 12): a step that latches an error halts the controller and writes nothing else;
the program counter stays at the faulting instruction. -/
def Obligations.ErrorsArePrecise : Prop :=
  ∀ s t : State, step s = .next t → t.err ≠ s.err →
    s.status = .running ∧ t = { s with status := .halted, err := t.err }

/-- R121: JMP alone sets the program counter; every other instruction, and every skipped opcode, continues after the
`1 + opcode[7:6]` bytes of the opcode at the program counter (R25, R83). The spec's own decisions it rests on: that JMP's
operand is the address is D13 (log 16), that the sum does not wrap is D2 (log 8), the amount for a skipped opcode is D4
(log 11), and the program counter after HALT, the address of HALT plus 1, is D12 (log 15). -/
def Obligations.OnlyJmpTransfersControl : Prop :=
  ∀ s t : State, s.status = .running → s.err = none → step s = .next t → t.err = none →
    (∀ a rest, decode s.cfg (fetchWindow s) = .instr (.jmp a) rest → t.pc.toNat = a.toNat) ∧
    ((∀ a rest, decode s.cfg (fetchWindow s) ≠ .instr (.jmp a) rest) →
      t.pc.toNat = s.pc.toNat + 1 + (byteAt s.pc.toNat s).toNat / 64)

/-- The stack law of R102: pushing register `a` and popping into register `c`, neither of them the stack pointer, moves
the value, restores the pointer, and changes no other register and no byte but the one below the stack pointer. -/
def Obligations.PushThenPopRoundTrip : Prop :=
  ∀ (a c : Byte) (s : State) (ha : a.toNat < 7) (hc : c.toNat < 7), s.mem.wf = true →
    ∃ t u, exec (.push a) s = .next t ∧ exec (.pop c) t = .next u ∧
      u.x[c.toNat] = s.x[a.toNat] ∧ u.x[7] = s.x[7] ∧ byteAt (s.x[7] - 1).toNat u = s.x[a.toNat] ∧
      (∀ r : Fin 8, r.val ≠ c.toNat → getReg r u = getReg r s) ∧
      ∀ b, b ≠ (s.x[7] - 1).toNat → byteAt b u = byteAt b s

/-- R54, with the address and the value that R101 gives PUSH: a byte stored by PUSH is what a later fetch at its address
returns, with nothing between. With a stack pointer of 0 the address is 255 by the spec's decision D10 (log 13); PUSH R7,
whose stored value is D11 (log 14), is left to `PushStoresAtDecrementedPointer`. -/
def Obligations.StoreIsSeenByNextFetch : Prop :=
  ∀ (a : Byte) (s t : State) (ha : a.toNat < 7), s.mem.wf = true → exec (.push a) s = .next t →
    ∀ u : State, u.mem = t.mem → u.pc.toNat = (s.x[7] - 1).toNat → (fetchWindow u).head? = some s.x[a.toNat]

/-- R40: every address 0 to 255 is readable and writable: a write is read back, changes no other cell and nothing but
memory, and keeps memory in its canonical form. -/
def Obligations.MemoryCellsReadBack : Prop :=
  ∀ (a : Nat) (v : Byte) (s : State), s.mem.wf = true → a < 256 →
    (∃ w, memRead a s = .ok w) ∧
    ∃ t, memWrite a v s = .ok t ∧ memRead a t = .ok v ∧ t = { s with mem := t.mem } ∧ t.mem.wf = true ∧
      ∀ b, b ≠ a → memRead b t = memRead b s

/-- R41, with the spec's decision D2 (trap, no wrap; log 8): an address of 256 or more raises `OutOfBounds` with that
address, for reads and for writes, and no address raises anything else. -/
def Obligations.AccessBeyondMemoryRaises : Prop :=
  ∀ (a : Nat) (v : Byte) (s : State),
    (256 ≤ a → memWrite a v s = .error (.outOfBounds a) ∧ memRead a s = .error (.outOfBounds a)) ∧
    ∀ e, (memWrite a v s = .error e ∨ memRead a s = .error e) → 256 ≤ a ∧ e = .outOfBounds a

/-! ### The invariant -/

/-- The invariant holds after reset, for every admissible RESET_MEM. -/
def Obligations.InvariantHoldsAtReset : Prop :=
  Inv State.reset ∧ ∀ cfg : Params, cfg.resetMem.wf = true → Inv (State.resetWith cfg)

/-- Every step keeps the invariant: memory stays canonical, the program counter stays at or below 259 (R24), an error is
latched only in Halted and the state shows its cause (R28, R170 to R176), the flags register keeps its reset value
(R26). -/
def Obligations.StepKeepsInvariant : Prop :=
  ∀ s t : State, Inv s → step s = .next t → Inv t

/-- Every command of the host keeps the invariant: in Ready only memory can differ from the reset state (R33, R34, R48,
R200). -/
def Obligations.CommandsKeepInvariant : Prop :=
  ∀ (c : Command) (s : State), Inv s → Inv (command c s)

/-- In every state that steps and commands reach from reset, whatever bytes were loaded: the invariant holds, the
parameters are those of the reset, and neither ALU error that R176 calls unreachable is latched. -/
def Obligations.ReachedStatesAreSafe : Prop :=
  ∀ (cfg : Params) (s : State), cfg.resetMem.wf = true → ReachedFrom (State.resetWith cfg) s →
    Inv s ∧ s.cfg = cfg ∧ s.err ≠ some .unsupportedOperation ∧ ∀ b, s.err ≠ some (.divisionByZero b)

/-! ### The host's side -/

/-- R48, R33; that values are cut to 8 bits is the spec's decision D23 (log 20): a load of at most 256 bytes in Ready
places byte `i` at address `i`, keeps every other cell, and changes nothing but memory. -/
def Obligations.LoadPlacesBytes : Prop :=
  ∀ (bytes : List Nat) (s : State), s.status = .ready → bytes.length ≤ 256 → s.mem.wf = true →
    (load bytes s).2 = .accepted ∧ (load bytes s).1 = { s with mem := (load bytes s).1.mem } ∧
    ∀ i < 256, byteAt i (load bytes s).1 = if h : i < bytes.length then BitVec.ofNat 8 bytes[i] else byteAt i s

/-- R48 and the spec's decision D23 (log 20): a load of more than 256 bytes fails with `OutOfBounds` to the host and
changes no state element; a load outside Ready is ignored. -/
def Obligations.LoadRefusedLeavesState : Prop :=
  ∀ (bytes : List Nat) (s : State),
    (s.status = .ready → 256 < bytes.length → load bytes s = (s, .outOfBounds)) ∧
    (s.status ≠ .ready → load bytes s = (s, .ignored))

/-- R34; that start is ignored outside Ready is the spec's decision D24 (log 20). -/
def Obligations.StartOnlyFromReady : Prop :=
  ∀ s : State, (s.status = .ready → command .start s = { s with status := .running }) ∧
    (s.status ≠ .ready → command .start s = s)

/-- R200, R38: reset, from any state. The values of registers 0 to 6, memory, flags and error latch are the spec's
decision D9 (log 4), as parameters and at their defaults; the stack pointer and the run state are the source's. -/
def Obligations.ResetValues : Prop :=
  (∀ s : State,
    (command .reset s).x[7] = 0xF4 ∧ (command .reset s).status = .ready ∧ (command .reset s).pc = 0 ∧
    (command .reset s).fl = 0x00 ∧ (command .reset s).err = none ∧ (command .reset s).out = [] ∧
    (command .reset s).diag = [] ∧ (command .reset s).cfg = s.cfg ∧ (command .reset s).mem = s.cfg.resetMem ∧
    ∀ r : Fin 7, (command .reset s).x[r.val] = s.cfg.resetRegs[r.val]) ∧
  (∀ a, byteAt a State.reset = 0x00) ∧ (∀ r : Fin 7, State.reset.x[r.val] = 0x00) ∧
  ∀ s : State, s.cfg = defaultParams → command .reset s = State.reset
end

