-- ==== Sys2Proof/Laws/Decode.lean ====
section
/-! SUPPORT. What the decoder can answer: its classes of opcodes, and the three outcomes of `decode`. -/

namespace Sys2Proof

theorem opcodeArity_lt (op : Byte) : opcodeArity op < 4 := (op.extractLsb' 6 2).isLt

theorem opcodeArity_eq (op : Byte) : opcodeArity op = op.toNat / 64 := by
  have := op.isLt
  simp only [opcodeArity, BitVec.extractLsb'_toNat, Nat.shiftRight_eq_div_pow]
  omega

theorem opcodeControlFlow_eq (op : Byte) : opcodeControlFlow op = decide (op.toNat / 16 % 2 = 1) := by
  simp [opcodeControlFlow, BitVec.getLsbD, Nat.testBit, Nat.shiftRight_eq_div_pow,
    Nat.one_and_eq_mod_two]
  rcases Nat.mod_two_eq_zero_or_one (op.toNat / 16) with h | h <;> simp [h]

theorem definedTable_lookup (d : Defined) : definedTable.lookup (definedOpcode d) = some d := by
  cases d <;> decide

/-- Only a defined instruction's own opcode is found in the table. -/
theorem definedTable_lookup_some {op : Byte} {d : Defined} (h : definedTable.lookup op = some d) :
    op = definedOpcode d := by
  revert op d
  decide

theorem classify_definedOpcode (cfg : Params) (d : Defined) : classify cfg (definedOpcode d) = .defined d := by
  simp [classify, definedTable_lookup]

theorem classify_defined {cfg : Params} {op : Byte} {d : Defined} (h : classify cfg op = .defined d) :
    op = definedOpcode d := by
  unfold classify at h
  split at h
  · next d' hd =>
    cases h
    exact definedTable_lookup_some hd
  · split at h <;> cases h

theorem classify_placeholder {cfg : Params} {op : Byte} {m : Placeholder} (h : classify cfg op = .placeholder m) :
    cfg.placeholderAt op = some m := by
  unfold classify at h
  split at h
  · cases h
  · split at h <;> cases h
    assumption

theorem mem_of_lookup {α β : Type} [BEq α] [LawfulBEq α] {k : α} {v : β} :
    ∀ {l : List (α × β)}, l.lookup k = some v → (k, v) ∈ l
  | [], h => by cases h
  | (a, b) :: rest, h => by
    rw [List.lookup_cons] at h
    split at h
    · next hk =>
      cases h
      simp at hk
      simp [hk]
    · exact List.mem_cons_of_mem _ (mem_of_lookup h)

/-- Under a map that avoids the seven defined values, a key is a placeholder. -/
theorem classify_of_placeholderAt {cfg : Params} {op : Byte} {m : Placeholder} (hcfg : cfg.wf = true)
    (h : cfg.placeholderAt op = some m) : classify cfg op = .placeholder m := by
  simp only [Params.wf, Bool.and_eq_true, List.all_eq_true] at hcfg
  have hnone := hcfg.2 _ (mem_of_lookup h)
  simp only [Option.isNone_iff_eq_none] at hnone
  simp [classify, hnone, h]

/-- The instruction a placeholder opcode decodes to is that placeholder. -/
theorem placeholder_toInstr (m : Placeholder) (op : Byte) : (m.toInstr op).placeholder? = some (m, op) := by
  cases m <;> rfl

theorem wellFormed_toInstr (cfg : Params) (m : Placeholder) (op : Byte) :
    (m.toInstr op).wellFormed cfg = (cfg.placeholderAt op == some m) := by
  cases m <;> rfl

theorem encode_toInstr (m : Placeholder) (op : Byte) : encode (m.toInstr op) = [op] := by
  cases m <;> rfl

/-- A constructor that is not one of the seven defined instructions is a placeholder with its opcode byte. -/
theorem toInstr_of_placeholder? {i : Instr} {m : Placeholder} {op : Byte} (h : i.placeholder? = some (m, op)) :
    i = m.toInstr op := by
  cases i <;> simp [Instr.placeholder?] at h <;> obtain ⟨rfl, rfl⟩ := h <;> rfl

/-- What `decode` can answer on a list that starts with an opcode. -/
theorem decode_cons (cfg : Params) (op : Byte) (rest : List Byte) :
    (classify cfg op = .unregistered ∧ decode cfg (op :: rest) = .unregistered op) ∨
    (∃ m, classify cfg op = .placeholder m ∧ decode cfg (op :: rest) = .instr (m.toInstr op) rest) ∨
    (∃ d, classify cfg op = .defined d ∧ op = definedOpcode d ∧ decode cfg (op :: rest) = decodeDefined d rest) := by
  rcases h : classify cfg op with d | m | _
  · exact .inr (.inr ⟨d, rfl, classify_defined h, by simp [decode, h]⟩)
  · exact .inr (.inl ⟨m, rfl, by simp [decode, h]⟩)
  · exact .inl ⟨rfl, by simp [decode, h]⟩

/-- A defined instruction decodes to an instruction of its own, made of its opcode and the operand bytes that follow;
the bytes it consumed are as many as its arity says. -/
theorem decodeDefined_instr {d : Defined} {bytes rest : List Byte} {i : Instr}
    (h : decodeDefined d bytes = .instr i rest) :
    i.placeholder? = none ∧ definedOpcode d :: bytes = encode i ++ rest ∧
      bytes.length = opcodeArity (definedOpcode d) + rest.length := by
  cases d <;> rcases bytes with _ | ⟨a, _ | ⟨b, l⟩⟩ <;> simp [decodeDefined, takeOperand, takeOperands] at h <;>
    obtain ⟨rfl, rfl⟩ := h <;> simp [Instr.placeholder?, encode, definedOpcode, opcodeArity] <;> omega

/-- It is missing an operand only when fewer bytes follow than its arity, and then the first one that is not there. -/
theorem decodeDefined_missing {d : Defined} {bytes : List Byte} {k : Nat} (h : decodeDefined d bytes = .missing k) :
    k = bytes.length + 1 ∧ bytes.length < opcodeArity (definedOpcode d) := by
  cases d <;> rcases bytes with _ | ⟨a, _ | ⟨b, l⟩⟩ <;> simp [decodeDefined, takeOperand, takeOperands] at h <;>
    subst h <;> simp [definedOpcode, opcodeArity]

theorem decodeDefined_ne_unregistered (d : Defined) (bytes : List Byte) (op : Byte) :
    decodeDefined d bytes ≠ .unregistered op := by
  cases d <;> rcases bytes with _ | ⟨a, _ | ⟨b, l⟩⟩ <;> simp [decodeDefined, takeOperand, takeOperands]

theorem encode_ne_nil (i : Instr) : encode i ≠ [] := by
  cases i <;> simp [encode]

theorem encode_length_le (i : Instr) : (encode i).length ≤ 3 := by
  cases i <;> simp [encode]

/-- The bytes of a table word: three of them. -/
theorem tableWordBytes_length (nbits w : Nat) : (tableWordBytes nbits w).length = 3 := rfl

end Sys2Proof
end

