-- ==== Sys2Proof/Laws/Memory.lean ====
section
/-! SUPPORT. The laws of memory: read after write, every operation keeps the canonical form, and canonical memories
that read alike are equal. -/

namespace Sys2Proof

theorem Memory.wfFrom_cons {lo a : Nat} {v : Byte} {rest : Memory} :
    Memory.wfFrom lo ((a, v) :: rest) = true ↔
      lo ≤ a ∧ a < Config.memSize ∧ v ≠ Memory.unlisted ∧ Memory.wfFrom (a + 1) rest = true := by
  simp [Memory.wfFrom, and_assoc]

theorem Memory.wfFrom_mono {lo lo' : Nat} (h : lo' ≤ lo) :
    ∀ {m : Memory}, Memory.wfFrom lo m = true → Memory.wfFrom lo' m = true
  | [], _ => rfl
  | (a, v) :: rest, hm => by
    rw [Memory.wfFrom_cons] at hm ⊢
    exact ⟨h.trans hm.1, hm.2⟩

/-- Below the first address it may list, a canonical memory reads as unlisted. -/
theorem Memory.read_below {a : Nat} :
    ∀ {lo : Nat} {m : Memory}, Memory.wfFrom lo m = true → a < lo → m.read a = Memory.unlisted
  | _, [], _, _ => rfl
  | lo, (b, w) :: rest, hm, h => by
    rw [Memory.wfFrom_cons] at hm
    rw [Memory.read, if_neg (by omega), Memory.read_below hm.2.2.2 (by omega)]

/-- At and above address 256 there is no cell: a canonical memory lists nothing there. -/
theorem Memory.read_beyond {a : Nat} (h : Config.memSize ≤ a) :
    ∀ {lo : Nat} {m : Memory}, Memory.wfFrom lo m = true → m.read a = Memory.unlisted
  | _, [], _ => rfl
  | lo, (b, w) :: rest, hm => by
    rw [Memory.wfFrom_cons] at hm
    rw [Memory.read, if_neg (by omega), Memory.read_beyond h hm.2.2.2]

theorem Memory.read_write_same {a : Nat} {v : Byte} :
    ∀ {lo : Nat} {m : Memory}, Memory.wfFrom lo m = true → (m.write a v).read a = v
  | _, [], _ => by
    by_cases hv : v = Memory.unlisted <;> simp [Memory.write, Memory.read, hv]
  | lo, (b, w) :: rest, hm => by
    rw [Memory.wfFrom_cons] at hm
    rcases Nat.lt_trichotomy a b with h | h | h
    · by_cases hv : v = Memory.unlisted
      · rw [Memory.write, if_pos h, if_pos hv, Memory.read, if_neg (by omega),
          Memory.read_below hm.2.2.2 (by omega), hv]
      · simp [Memory.write, Memory.read, h, hv]
    · by_cases hv : v = Memory.unlisted
      · rw [Memory.write, if_neg (by omega), if_pos h, if_pos hv, Memory.read_below hm.2.2.2 (by omega), hv]
      · simp [Memory.write, Memory.read, h, hv]
    · rw [Memory.write, if_neg (by omega), if_neg (by omega), Memory.read, if_neg (by omega),
        Memory.read_write_same hm.2.2.2]

theorem Memory.read_write_other {a b : Nat} {v : Byte} (h : b ≠ a) :
    ∀ {m : Memory}, (m.write a v).read b = m.read b
  | [] => by
    by_cases hv : v = Memory.unlisted <;> simp [Memory.write, Memory.read, hv, h]
  | (c, w) :: rest => by
    have ih := Memory.read_write_other (v := v) h (m := rest)
    unfold Memory.write
    split_ifs <;> simp_all [Memory.read]

/-- One byte after a store: the stored byte at its address, the old byte elsewhere. -/
theorem Memory.read_write {m : Memory} (hm : m.wf = true) (a b : Nat) (v : Byte) :
    (m.write a v).read b = if b = a then v else m.read b := by
  split_ifs with h
  · rw [h, Memory.read_write_same hm]
  · exact Memory.read_write_other h

theorem Memory.wfFrom_write {a : Nat} {v : Byte} (ha : a < Config.memSize) :
    ∀ {lo : Nat} {m : Memory}, Memory.wfFrom lo m = true → lo ≤ a → Memory.wfFrom lo (m.write a v) = true
  | lo, [], _, h => by
    by_cases hv : v = Memory.unlisted
    · simp [Memory.write, hv, Memory.wfFrom]
    · rw [Memory.write, if_neg hv, Memory.wfFrom_cons]
      exact ⟨h, ha, hv, rfl⟩
  | lo, (b, w) :: rest, hm, h => by
    have hm' := hm
    rw [Memory.wfFrom_cons] at hm'
    obtain ⟨h1, h2, h3, h4⟩ := hm'
    unfold Memory.write
    split_ifs with hab hv hab' hv
    · exact hm
    · rw [Memory.wfFrom_cons]
      exact ⟨h, ha, hv, Memory.wfFrom_cons.2 ⟨hab, h2, h3, h4⟩⟩
    · exact Memory.wfFrom_mono (by omega) h4
    · rw [Memory.wfFrom_cons]
      exact ⟨h, ha, hv, hab' ▸ h4⟩
    · rw [Memory.wfFrom_cons]
      exact ⟨h1, h2, h3, Memory.wfFrom_write ha h4 (by omega)⟩

/-- A store to an address that exists keeps the canonical form. -/
theorem Memory.wf_write {m : Memory} {a : Nat} {v : Byte} (hm : m.wf = true) (ha : a < Config.memSize) :
    (m.write a v).wf = true :=
  Memory.wfFrom_write ha hm (Nat.zero_le a)

/-- So do consecutive stores that end below address 256. -/
theorem Memory.wf_writeAll :
    ∀ {vs : List Byte} {m : Memory} {a : Nat}, m.wf = true → a + vs.length ≤ Config.memSize →
      (m.writeAll a vs).wf = true
  | [], _, _, hm, _ => hm
  | v :: vs, m, a, hm, h => by
    have h' : a + (vs.length + 1) ≤ Config.memSize := h
    exact Memory.wf_writeAll (m := m.write a v) (a := a + 1) (Memory.wf_write hm (by omega)) (by omega)

/-- One byte after consecutive stores: byte `b - a` of the list inside the range, the old byte outside. -/
theorem Memory.read_writeAll :
    ∀ {vs : List Byte} {m : Memory} {a : Nat} (b : Nat), m.wf = true → a + vs.length ≤ Config.memSize →
      (m.writeAll a vs).read b = if a ≤ b then vs[b - a]?.getD (m.read b) else m.read b
  | [], _, _, _, _, _ => by simp [Memory.writeAll]
  | v :: vs, m, a, b, hm, h => by
    have h' : a + (vs.length + 1) ≤ Config.memSize := h
    rw [Memory.writeAll, Memory.read_writeAll b (Memory.wf_write hm (by omega)) (by omega),
      Memory.read_write hm]
    rcases Nat.lt_trichotomy b a with hb | hb | hb
    · rw [if_neg (by omega), if_neg (by omega), if_neg (by omega)]
    · simp [hb]
    · obtain ⟨k, rfl⟩ : ∃ k, b = a + 1 + k := ⟨b - (a + 1), by omega⟩
      have e1 : a + 1 + k - (a + 1) = k := by omega
      have e2 : a + 1 + k - a = k + 1 := by omega
      rw [if_pos (by omega), if_neg (by omega), if_pos (by omega), e1, e2, List.getElem?_cons_succ]

/-- Two canonical memories that read alike from their lower bound on are the same list. -/
theorem Memory.eq_of_read :
    ∀ {lo : Nat} {m n : Memory}, Memory.wfFrom lo m = true → Memory.wfFrom lo n = true →
      (∀ a, m.read a = n.read a) → m = n
  | _, [], [], _, _, _ => rfl
  | _, [], (b, w) :: rest, _, hn, h => by
    rw [Memory.wfFrom_cons] at hn
    have := h b
    simp [Memory.read] at this
    exact absurd this.symm hn.2.2.1
  | _, (b, w) :: rest, [], hm, _, h => by
    rw [Memory.wfFrom_cons] at hm
    have := h b
    simp [Memory.read] at this
    exact absurd this hm.2.2.1
  | lo, (a, v) :: m, (b, w) :: n, hm, hn, h => by
    rw [Memory.wfFrom_cons] at hm hn
    have ha := h a
    have hb := h b
    have hab : a = b := by
      rcases Nat.lt_trichotomy a b with hlt | heq | hlt
      · rw [Memory.read, if_pos rfl, Memory.read, if_neg (by omega),
          Memory.read_below hn.2.2.2 (by omega)] at ha
        exact absurd ha hm.2.2.1
      · exact heq
      · rw [Memory.read, if_neg (by omega), Memory.read_below hm.2.2.2 (by omega), Memory.read,
          if_pos rfl] at hb
        exact absurd hb.symm hn.2.2.1
    subst hab
    have hvw : v = w := by simpa [Memory.read] using ha
    subst hvw
    rw [Memory.eq_of_read hm.2.2.2 hn.2.2.2 fun c => ?_]
    by_cases hc : c = a
    · rw [hc, Memory.read_below hm.2.2.2 (by omega), Memory.read_below hn.2.2.2 (by omega)]
    · simpa [Memory.read, hc] using h c

/-- Equal memories are equal data: canonical memories with the same bytes are the same list. -/
theorem Memory.ext_of_wf {m n : Memory} (hm : m.wf = true) (hn : n.wf = true) (h : ∀ a, m.read a = n.read a) :
    m = n :=
  Memory.eq_of_read hm hn h

end Sys2Proof
end

