-- ==== Sys2Proof/Laws/State.lean ====
section
/-! SUPPORT. One lemma per field per update of State, so that no proof unfolds a record update. -/

namespace Sys2Proof.Machine

@[simp] theorem setReg_mem (r : Fin 8) (v : Byte) (s : State) : (setReg r v s).mem = s.mem := rfl
@[simp] theorem setReg_x (r : Fin 8) (v : Byte) (s : State) : (setReg r v s).x = s.x.set r v := rfl
@[simp] theorem setReg_pc (r : Fin 8) (v : Byte) (s : State) : (setReg r v s).pc = s.pc := rfl
@[simp] theorem setReg_fl (r : Fin 8) (v : Byte) (s : State) : (setReg r v s).fl = s.fl := rfl
@[simp] theorem setReg_status (r : Fin 8) (v : Byte) (s : State) : (setReg r v s).status = s.status := rfl
@[simp] theorem setReg_err (r : Fin 8) (v : Byte) (s : State) : (setReg r v s).err = s.err := rfl
@[simp] theorem setReg_out (r : Fin 8) (v : Byte) (s : State) : (setReg r v s).out = s.out := rfl
@[simp] theorem setReg_diag (r : Fin 8) (v : Byte) (s : State) : (setReg r v s).diag = s.diag := rfl
@[simp] theorem setReg_cfg (r : Fin 8) (v : Byte) (s : State) : (setReg r v s).cfg = s.cfg := rfl

@[simp] theorem setSp_mem (v : Byte) (s : State) : (setSp v s).mem = s.mem := rfl
@[simp] theorem setSp_x (v : Byte) (s : State) : (setSp v s).x = s.x.set Config.spIndex v := rfl
@[simp] theorem setSp_pc (v : Byte) (s : State) : (setSp v s).pc = s.pc := rfl
@[simp] theorem setSp_fl (v : Byte) (s : State) : (setSp v s).fl = s.fl := rfl
@[simp] theorem setSp_status (v : Byte) (s : State) : (setSp v s).status = s.status := rfl
@[simp] theorem setSp_err (v : Byte) (s : State) : (setSp v s).err = s.err := rfl
@[simp] theorem setSp_out (v : Byte) (s : State) : (setSp v s).out = s.out := rfl
@[simp] theorem setSp_diag (v : Byte) (s : State) : (setSp v s).diag = s.diag := rfl
@[simp] theorem setSp_cfg (v : Byte) (s : State) : (setSp v s).cfg = s.cfg := rfl

@[simp] theorem setPc_mem (t : Pc) (s : State) : (setPc t s).mem = s.mem := rfl
@[simp] theorem setPc_x (t : Pc) (s : State) : (setPc t s).x = s.x := rfl
@[simp] theorem setPc_pc (t : Pc) (s : State) : (setPc t s).pc = t := rfl
@[simp] theorem setPc_fl (t : Pc) (s : State) : (setPc t s).fl = s.fl := rfl
@[simp] theorem setPc_status (t : Pc) (s : State) : (setPc t s).status = s.status := rfl
@[simp] theorem setPc_err (t : Pc) (s : State) : (setPc t s).err = s.err := rfl
@[simp] theorem setPc_out (t : Pc) (s : State) : (setPc t s).out = s.out := rfl
@[simp] theorem setPc_diag (t : Pc) (s : State) : (setPc t s).diag = s.diag := rfl
@[simp] theorem setPc_cfg (t : Pc) (s : State) : (setPc t s).cfg = s.cfg := rfl

@[simp] theorem stop_mem (s : State) : (stop s).mem = s.mem := rfl
@[simp] theorem stop_x (s : State) : (stop s).x = s.x := rfl
@[simp] theorem stop_pc (s : State) : (stop s).pc = s.pc := rfl
@[simp] theorem stop_fl (s : State) : (stop s).fl = s.fl := rfl
@[simp] theorem stop_status (s : State) : (stop s).status = .halted := rfl
@[simp] theorem stop_err (s : State) : (stop s).err = s.err := rfl
@[simp] theorem stop_out (s : State) : (stop s).out = s.out := rfl
@[simp] theorem stop_diag (s : State) : (stop s).diag = s.diag := rfl
@[simp] theorem stop_cfg (s : State) : (stop s).cfg = s.cfg := rfl

@[simp] theorem emitOut_mem (v : Byte) (s : State) : (emitOut v s).mem = s.mem := rfl
@[simp] theorem emitOut_x (v : Byte) (s : State) : (emitOut v s).x = s.x := rfl
@[simp] theorem emitOut_pc (v : Byte) (s : State) : (emitOut v s).pc = s.pc := rfl
@[simp] theorem emitOut_fl (v : Byte) (s : State) : (emitOut v s).fl = s.fl := rfl
@[simp] theorem emitOut_status (v : Byte) (s : State) : (emitOut v s).status = s.status := rfl
@[simp] theorem emitOut_err (v : Byte) (s : State) : (emitOut v s).err = s.err := rfl
@[simp] theorem emitOut_out (v : Byte) (s : State) : (emitOut v s).out = s.out ++ [v] := rfl
@[simp] theorem emitOut_diag (v : Byte) (s : State) : (emitOut v s).diag = s.diag := rfl
@[simp] theorem emitOut_cfg (v : Byte) (s : State) : (emitOut v s).cfg = s.cfg := rfl

@[simp] theorem emitDiag_mem (op : Byte) (s : State) : (emitDiag op s).mem = s.mem := rfl
@[simp] theorem emitDiag_x (op : Byte) (s : State) : (emitDiag op s).x = s.x := rfl
@[simp] theorem emitDiag_pc (op : Byte) (s : State) : (emitDiag op s).pc = s.pc := rfl
@[simp] theorem emitDiag_fl (op : Byte) (s : State) : (emitDiag op s).fl = s.fl := rfl
@[simp] theorem emitDiag_status (op : Byte) (s : State) : (emitDiag op s).status = s.status := rfl
@[simp] theorem emitDiag_err (op : Byte) (s : State) : (emitDiag op s).err = s.err := rfl
@[simp] theorem emitDiag_out (op : Byte) (s : State) : (emitDiag op s).out = s.out := rfl
@[simp] theorem emitDiag_diag (op : Byte) (s : State) : (emitDiag op s).diag = s.diag ++ [op] := rfl
@[simp] theorem emitDiag_cfg (op : Byte) (s : State) : (emitDiag op s).cfg = s.cfg := rfl

@[simp] theorem raise_mem (e : CoreError) (s : State) : (raise e s).mem = s.mem := rfl
@[simp] theorem raise_x (e : CoreError) (s : State) : (raise e s).x = s.x := rfl
@[simp] theorem raise_pc (e : CoreError) (s : State) : (raise e s).pc = s.pc := rfl
@[simp] theorem raise_fl (e : CoreError) (s : State) : (raise e s).fl = s.fl := rfl
@[simp] theorem raise_status (e : CoreError) (s : State) : (raise e s).status = .halted := rfl
@[simp] theorem raise_err (e : CoreError) (s : State) : (raise e s).err = some e := rfl
@[simp] theorem raise_out (e : CoreError) (s : State) : (raise e s).out = s.out := rfl
@[simp] theorem raise_diag (e : CoreError) (s : State) : (raise e s).diag = s.diag := rfl
@[simp] theorem raise_cfg (e : CoreError) (s : State) : (raise e s).cfg = s.cfg := rfl

@[simp] theorem advance_mem (op : Byte) (s : State) : (advance op s).mem = s.mem := rfl
@[simp] theorem advance_x (op : Byte) (s : State) : (advance op s).x = s.x := rfl
@[simp] theorem advance_pc (op : Byte) (s : State) : (advance op s).pc = s.pc + BitVec.ofNat 9 (1 + opcodeArity op) := rfl
@[simp] theorem advance_fl (op : Byte) (s : State) : (advance op s).fl = s.fl := rfl
@[simp] theorem advance_status (op : Byte) (s : State) : (advance op s).status = s.status := rfl
@[simp] theorem advance_err (op : Byte) (s : State) : (advance op s).err = s.err := rfl
@[simp] theorem advance_out (op : Byte) (s : State) : (advance op s).out = s.out := rfl
@[simp] theorem advance_diag (op : Byte) (s : State) : (advance op s).diag = s.diag := rfl
@[simp] theorem advance_cfg (op : Byte) (s : State) : (advance op s).cfg = s.cfg := rfl

@[simp] theorem resetWith_mem (cfg : Params) : (State.resetWith cfg).mem = cfg.resetMem := rfl
@[simp] theorem resetWith_x (cfg : Params) : (State.resetWith cfg).x = cfg.resetRegs.push Config.spReset := rfl
@[simp] theorem resetWith_pc (cfg : Params) : (State.resetWith cfg).pc = 0 := rfl
@[simp] theorem resetWith_fl (cfg : Params) : (State.resetWith cfg).fl = 0x00 := rfl
@[simp] theorem resetWith_status (cfg : Params) : (State.resetWith cfg).status = .ready := rfl
@[simp] theorem resetWith_err (cfg : Params) : (State.resetWith cfg).err = none := rfl
@[simp] theorem resetWith_out (cfg : Params) : (State.resetWith cfg).out = [] := rfl
@[simp] theorem resetWith_diag (cfg : Params) : (State.resetWith cfg).diag = [] := rfl
@[simp] theorem resetWith_cfg (cfg : Params) : (State.resetWith cfg).cfg = cfg := rfl

/-! Reading one register after writing one. -/

/-- A register by its number. -/
theorem getReg_mk {i : Nat} (h : i < 8) (s : State) : getReg ⟨i, h⟩ s = s.x[i] := rfl

theorem sp_eq (s : State) : sp s = s.x[7] := rfl

theorem getReg_setReg (r r' : Fin 8) (v : Byte) (s : State) :
    getReg r' (setReg r v s) = if r' = r then v else getReg r' s := by
  simp only [getReg, setReg, Fin.getElem_fin, Vector.getElem_set]
  by_cases h : r' = r
  · simp [h]
  · rw [if_neg (fun h' => h (Fin.ext h'.symm)), if_neg h]

@[simp] theorem getReg_setReg_same (r : Fin 8) (v : Byte) (s : State) : getReg r (setReg r v s) = v := by
  simp [getReg_setReg]

theorem getReg_setReg_other {r r' : Fin 8} (h : r' ≠ r) (v : Byte) (s : State) :
    getReg r' (setReg r v s) = getReg r' s := by
  simp [getReg_setReg, h]

@[simp] theorem sp_setSp (v : Byte) (s : State) : sp (setSp v s) = v := getReg_setReg_same _ _ _

theorem getReg_setSp (r : Fin 8) (v : Byte) (s : State) :
    getReg r (setSp v s) = if r = Config.spIndex then v else getReg r s := getReg_setReg _ _ _ _

/-- Two states with the same registers, read one by one, have the same register file. -/
theorem regs_ext {s t : State} (h : ∀ r, getReg r t = getReg r s) : t.x = s.x := by
  apply Vector.ext
  intro i hi
  exact h ⟨i, hi⟩

/-! Reading one register or one byte after an update that touches neither. -/

@[simp] theorem byteAt_setReg (a : Nat) (r : Fin 8) (v : Byte) (s : State) : byteAt a (setReg r v s) = byteAt a s := rfl
@[simp] theorem byteAt_setSp (a : Nat) (v : Byte) (s : State) : byteAt a (setSp v s) = byteAt a s := rfl
@[simp] theorem getReg_setPc (r' : Fin 8) (t : Pc) (s : State) : getReg r' (setPc t s) = getReg r' s := rfl
@[simp] theorem byteAt_setPc (a : Nat) (t : Pc) (s : State) : byteAt a (setPc t s) = byteAt a s := rfl
@[simp] theorem getReg_stop (r' : Fin 8) (s : State) : getReg r' (stop s) = getReg r' s := rfl
@[simp] theorem byteAt_stop (a : Nat) (s : State) : byteAt a (stop s) = byteAt a s := rfl
@[simp] theorem getReg_emitOut (r' : Fin 8) (v : Byte) (s : State) : getReg r' (emitOut v s) = getReg r' s := rfl
@[simp] theorem byteAt_emitOut (a : Nat) (v : Byte) (s : State) : byteAt a (emitOut v s) = byteAt a s := rfl
@[simp] theorem getReg_emitDiag (r' : Fin 8) (op : Byte) (s : State) : getReg r' (emitDiag op s) = getReg r' s := rfl
@[simp] theorem byteAt_emitDiag (a : Nat) (op : Byte) (s : State) : byteAt a (emitDiag op s) = byteAt a s := rfl
@[simp] theorem getReg_raise (r' : Fin 8) (e : CoreError) (s : State) : getReg r' (raise e s) = getReg r' s := rfl
@[simp] theorem byteAt_raise (a : Nat) (e : CoreError) (s : State) : byteAt a (raise e s) = byteAt a s := rfl
@[simp] theorem getReg_advance (r' : Fin 8) (op : Byte) (s : State) : getReg r' (advance op s) = getReg r' s := rfl
@[simp] theorem byteAt_advance (a : Nat) (op : Byte) (s : State) : byteAt a (advance op s) = byteAt a s := rfl

end Sys2Proof.Machine
end

