-- ==== Sys2Proof/Laws/Ops.lean ====
section
/-! SUPPORT. For each shared operation, once, everything it can do. -/

namespace Sys2Proof.Machine

/-! Operands. -/

theorem withReg_valid {a : Byte} (h : a.toNat < 8) (k : Fin 8 → Stage) : withReg a k = k ⟨a.toNat, h⟩ := by
  simp [withReg, h]

theorem withReg_invalid {a : Byte} (h : 8 ≤ a.toNat) (k : Fin 8 → Stage) :
    withReg a k = .error (.invalidRegister a) := by
  simp [withReg, Nat.not_lt.2 h]

/-- A register operand either names a register or raises. -/
theorem withReg_cases (a : Byte) (k : Fin 8 → Stage) :
    (∃ h : a.toNat < 8, withReg a k = k ⟨a.toNat, h⟩) ∨
    (8 ≤ a.toNat ∧ withReg a k = .error (.invalidRegister a)) := by
  by_cases h : a.toNat < 8
  · exact .inl ⟨h, withReg_valid h k⟩
  · exact .inr ⟨Nat.not_lt.1 h, withReg_invalid (Nat.not_lt.1 h) k⟩

/-! Memory accesses. -/

theorem memRead_valid {a : Nat} (h : a < 256) (s : State) : memRead a s = .ok (byteAt a s) := by
  simp [memRead, Config.memSize, h]

theorem memRead_invalid {a : Nat} (h : 256 ≤ a) (s : State) : memRead a s = .error (.outOfBounds a) := by
  simp [memRead, Config.memSize, Nat.not_lt.2 h]

theorem memWrite_valid {a : Nat} (h : a < 256) (v : Byte) (s : State) :
    memWrite a v s = .ok { s with mem := s.mem.write a v } := by
  simp [memWrite, Config.memSize, h]

/-- The stack pointer always addresses a cell (R22). -/
theorem sp_lt (s : State) : (sp s).toNat < 256 := (sp s).isLt

theorem memRead_sp (s : State) : memRead (sp s).toNat s = .ok (byteAt (sp s).toNat s) := memRead_valid (sp_lt s) s

/-! The end of a cycle. -/

/-- A defined instruction's cycle always ends in a next state: the error of its stage, or the stage's state with the
program counter advanced unless the opcode's control-flow bit is set. -/
theorem finish_cases (op : Byte) (s : State) (st : Stage) :
    (∃ e, st = .error e ∧ finish op s st = .next (raise e s)) ∨
    (∃ s', st = .ok s' ∧ finish op s st = .next (if opcodeControlFlow op then s' else advance op s')) := by
  cases st with
  | error e => exact .inl ⟨e, rfl, rfl⟩
  | ok s' => exact .inr ⟨s', rfl, rfl⟩

theorem finish_error (op : Byte) (s : State) (e : CoreError) : finish op s (.error e) = .next (raise e s) := rfl

theorem finish_ok {op : Byte} (h : opcodeControlFlow op = false) (s s' : State) :
    finish op s (.ok s') = .next (advance op s') := by
  simp [finish, h]

theorem finish_ok_controlFlow {op : Byte} (h : opcodeControlFlow op = true) (s s' : State) :
    finish op s (.ok s') = .next s' := by
  simp [finish, h]

/-- An opcode that is no defined instruction raises its error or is reported and skipped. -/
theorem skipOrFault_cases (e : CoreError) (policy : Policy) (op : Byte) (s : State) :
    (policy = .fatal ∧ skipOrFault e policy op s = .next (raise e s)) ∨
    (policy = .reportAndContinue ∧ skipOrFault e policy op s = .next (advance op (emitDiag op s))) := by
  cases policy with
  | fatal => exact .inl ⟨rfl, rfl⟩
  | reportAndContinue => exact .inr ⟨rfl, rfl⟩

/-- Every placeholder's meaning is the one shared behaviour. -/
theorem exec_toInstr (m : Placeholder) (op : Byte) (s : State) : exec (m.toInstr op) s = unimplemented op s := by
  cases m <;> rfl

/-! The ALU. -/

theorem aluBinary_valid {a b : Byte} (ha : a.toNat < 8) (hb : b.toNat < 8)
    (f : Byte → Byte → Except CoreError Byte) (s : State) :
    aluBinary f a b s =
      match f (getReg ⟨a.toNat, ha⟩ s) (getReg ⟨b.toNat, hb⟩ s) with
      | .error e => .error e
      | .ok r => .ok (setReg ⟨a.toNat, ha⟩ r s) :=
  (withReg_valid ha _).trans (withReg_valid hb _)

theorem aluBinary_invalid_first {a : Byte} (ha : 8 ≤ a.toNat) (b : Byte) (f : Byte → Byte → Except CoreError Byte)
    (s : State) : aluBinary f a b s = .error (.invalidRegister a) :=
  withReg_invalid ha _

theorem aluBinary_invalid_second {a b : Byte} (ha : a.toNat < 8) (hb : 8 ≤ b.toNat)
    (f : Byte → Byte → Except CoreError Byte) (s : State) : aluBinary f a b s = .error (.invalidRegister b) :=
  (withReg_valid ha _).trans (withReg_invalid hb _)

/-- A result, or an error, on two registers that exist. -/
theorem aluBinary_ok {a b : Byte} (ha : a.toNat < 8) (hb : b.toNat < 8) {f : Byte → Byte → Except CoreError Byte}
    {s : State} {r : Byte} (h : f (getReg ⟨a.toNat, ha⟩ s) (getReg ⟨b.toNat, hb⟩ s) = .ok r) :
    aluBinary f a b s = .ok (setReg ⟨a.toNat, ha⟩ r s) := by
  rw [aluBinary_valid ha hb, h]

theorem aluBinary_error {a b : Byte} (ha : a.toNat < 8) (hb : b.toNat < 8) {f : Byte → Byte → Except CoreError Byte}
    {s : State} {e : CoreError} (h : f (getReg ⟨a.toNat, ha⟩ s) (getReg ⟨b.toNat, hb⟩ s) = .error e) :
    aluBinary f a b s = .error e := by
  rw [aluBinary_valid ha hb, h]

theorem aluDivide_zero {q : Byte} (h : q = 0) (b p : Byte) : aluDivide b p q = .error (.divisionByZero b) := if_pos h

theorem aluDivide_nonzero {q : Byte} (h : q ≠ 0) (b p : Byte) : aluDivide b p q = .ok (p / q) := if_neg h

/-- A selector outside the four raises, whatever the operands are. -/
@[simp] theorem aluApply_unknown (n : Nat) (a b : Byte) (s : State) :
    aluApply (.unknown n) a b s = .error .unsupportedOperation := rfl

theorem aluApply_add (a b : Byte) (s : State) : aluApply .add a b s = aluBinary (fun p q => .ok (p + q)) a b s := rfl

theorem aluApply_sub (a b : Byte) (s : State) : aluApply .sub a b s = aluBinary (fun p q => .ok (p - q)) a b s := rfl

theorem aluApply_div (a b : Byte) (s : State) : aluApply .div a b s = aluBinary (aluDivide b) a b s := rfl

theorem aluApply_mul (a b : Byte) (s : State) : aluApply .mul a b s = aluBinary (fun p q => .ok (p * q)) a b s := rfl

/-- Each of the four operations is a computation on two registers, whose only error is the zero divisor of DIV. -/
theorem aluApply_cases (op : AluOp) (a b : Byte) :
    (∃ n, op = .unknown n) ∨
    ∃ f : Byte → Byte → Except CoreError Byte, (∀ s, aluApply op a b s = aluBinary f a b s) ∧
      ∀ p q, (∃ r, f p q = .ok r) ∨ (op = .div ∧ q = 0 ∧ f p q = .error (.divisionByZero b)) := by
  cases op with
  | add => exact .inr ⟨_, fun _ => rfl, fun _ _ => .inl ⟨_, rfl⟩⟩
  | mul => exact .inr ⟨_, fun _ => rfl, fun _ _ => .inl ⟨_, rfl⟩⟩
  | sub => exact .inr ⟨_, fun _ => rfl, fun _ _ => .inl ⟨_, rfl⟩⟩
  | div =>
    refine .inr ⟨aluDivide b, fun _ => rfl, fun p q => ?_⟩
    by_cases h : q = 0
    · exact .inr ⟨rfl, h, aluDivide_zero h b p⟩
    · exact .inl ⟨_, aluDivide_nonzero h b p⟩
  | unknown n => exact .inl ⟨n, rfl⟩

/-- What MUL's execute stage can do. -/
theorem aluApply_mul_cases (a b : Byte) (s : State) :
    (∃ (ha : a.toNat < 8) (hb : b.toNat < 8), aluApply .mul a b s =
      .ok (setReg ⟨a.toNat, ha⟩ (getReg ⟨a.toNat, ha⟩ s * getReg ⟨b.toNat, hb⟩ s) s)) ∨
    (8 ≤ a.toNat ∧ aluApply .mul a b s = .error (.invalidRegister a)) ∨
    (a.toNat < 8 ∧ 8 ≤ b.toNat ∧ aluApply .mul a b s = .error (.invalidRegister b)) := by
  rw [aluApply_mul]
  by_cases ha : a.toNat < 8
  · by_cases hb : b.toNat < 8
    · exact .inl ⟨ha, hb, aluBinary_ok ha hb rfl⟩
    · exact .inr (.inr ⟨ha, Nat.not_lt.1 hb, aluBinary_invalid_second ha (Nat.not_lt.1 hb) _ s⟩)
  · exact .inr (.inl ⟨Nat.not_lt.1 ha, aluBinary_invalid_first (Nat.not_lt.1 ha) b _ s⟩)

/-! The bytes a cycle can fetch. -/

theorem fetchWindow_beyond {s : State} (h : 256 ≤ s.pc.toNat) : fetchWindow s = [] := by
  simp [fetchWindow, memRead_invalid (show 256 ≤ s.pc.toNat + 1 by omega),
    memRead_invalid (show 256 ≤ s.pc.toNat + 2 by omega), memRead_invalid h, Except.toOption]

/-- Below address 256 the window starts with the opcode; an operand byte is in it exactly when its address exists. -/
theorem fetchWindow_opcode {s : State} (h : s.pc.toNat < 256) :
    fetchWindow s = byteAt s.pc.toNat s ::
      ((if s.pc.toNat + 1 < 256 then [byteAt (s.pc.toNat + 1) s] else []) ++
        (if s.pc.toNat + 2 < 256 then [byteAt (s.pc.toNat + 2) s] else [])) := by
  simp only [fetchWindow, Nat.add_zero, List.filterMap_cons, List.filterMap_nil, memRead_valid h]
  by_cases h1 : s.pc.toNat + 1 < 256
  · by_cases h2 : s.pc.toNat + 2 < 256
    · simp [memRead_valid h1, memRead_valid h2, h1, h2, Except.toOption]
    · simp [memRead_valid h1, memRead_invalid (Nat.not_lt.1 h2), h1, h2, Except.toOption]
  · have h2 : ¬ s.pc.toNat + 2 < 256 := by omega
    simp [memRead_invalid (Nat.not_lt.1 h1), memRead_invalid (Nat.not_lt.1 h2), h1, h2, Except.toOption]

end Sys2Proof.Machine
end

