-- ==== Sys2Proof/Laws/Exec.lean ====
section
/-! SUPPORT. What each defined instruction can do, said once: if its meaning answers a next state, it is one of these. -/

namespace Sys2Proof.Machine

theorem execLdi_cases {a b : Byte} {s t : State} (h : exec (.ldi a b) s = .next t) :
    (∃ ha : a.toNat < 8, t = advance 0x82 (setReg ⟨a.toNat, ha⟩ b s)) ∨
    (8 ≤ a.toNat ∧ t = raise (.invalidRegister a) s) := by
  change finish _ s (withReg a _) = _ at h
  rcases withReg_cases a fun r => .ok (setReg r (imm8 b) s) with ⟨ha, e⟩ | ⟨ha, e⟩ <;> rw [e] at h <;> cases h
  · exact .inl ⟨ha, rfl⟩
  · exact .inr ⟨ha, rfl⟩

theorem execPush_cases {a : Byte} {s t : State} (h : exec (.push a) s = .next t) :
    (∃ ha : a.toNat < 8, t = advance 0x45 { setSp (sp s - 1) s with
        mem := s.mem.write (sp s - 1).toNat (getReg ⟨a.toNat, ha⟩ (setSp (sp s - 1) s)) }) ∨
    (8 ≤ a.toNat ∧ t = raise (.invalidRegister a) s) := by
  change finish _ s (withReg a fun r =>
    memWrite (sp (setSp (sp s - 1) s)).toNat (getReg r (setSp (sp s - 1) s)) (setSp (sp s - 1) s)) = _ at h
  by_cases ha : a.toNat < 8
  · rw [withReg_valid ha, memWrite_valid (sp_lt _), sp_setSp] at h
    cases h
    exact .inl ⟨ha, rfl⟩
  · rw [withReg_invalid (Nat.not_lt.1 ha)] at h
    cases h
    exact .inr ⟨Nat.not_lt.1 ha, rfl⟩

theorem execPop_cases {a : Byte} {s t : State} (h : exec (.pop a) s = .next t) :
    (∃ (ha : a.toNat < 8) (s' : State), s' = setReg ⟨a.toNat, ha⟩ (byteAt (sp s).toNat s) s ∧
      t = advance 0x46 (setSp (sp s' + 1) s')) ∨
    (8 ≤ a.toNat ∧ t = raise (.invalidRegister a) s) := by
  by_cases ha : a.toNat < 8
  · simp only [exec, execPop, withReg_valid ha, memRead_sp] at h
    cases h
    exact .inl ⟨ha, _, rfl, rfl⟩
  · simp only [exec, execPop, withReg_invalid (Nat.not_lt.1 ha)] at h
    cases h
    exact .inr ⟨Nat.not_lt.1 ha, rfl⟩

theorem execPrn_cases {a : Byte} {s t : State} (h : exec (.prn a) s = .next t) :
    (∃ ha : a.toNat < 8, t = advance 0x47 (emitOut (getReg ⟨a.toNat, ha⟩ s) s)) ∨
    (8 ≤ a.toNat ∧ t = raise (.invalidRegister a) s) := by
  change finish _ s (withReg a _) = _ at h
  rcases withReg_cases a fun r => .ok (emitOut (getReg r s) s) with ⟨ha, e⟩ | ⟨ha, e⟩ <;> rw [e] at h <;> cases h
  · exact .inl ⟨ha, rfl⟩
  · exact .inr ⟨ha, rfl⟩

theorem execMul_cases {a b : Byte} {s t : State} (h : exec (.mul a b) s = .next t) :
    (∃ (ha : a.toNat < 8) (hb : b.toNat < 8), t =
      advance 0xA2 (setReg ⟨a.toNat, ha⟩ (getReg ⟨a.toNat, ha⟩ s * getReg ⟨b.toNat, hb⟩ s) s)) ∨
    (8 ≤ a.toNat ∧ t = raise (.invalidRegister a) s) ∨
    (a.toNat < 8 ∧ 8 ≤ b.toNat ∧ t = raise (.invalidRegister b) s) := by
  change finish _ s (aluApply .mul a b s) = _ at h
  rcases aluApply_mul_cases a b s with ⟨ha, hb, e⟩ | ⟨ha, e⟩ | ⟨ha, hb, e⟩ <;> rw [e] at h <;> cases h
  · exact .inl ⟨ha, hb, rfl⟩
  · exact .inr (.inl ⟨ha, rfl⟩)
  · exact .inr (.inr ⟨ha, hb, rfl⟩)

theorem execHalt_next {s t : State} (h : exec .halt s = .next t) : t = advance 0x01 (stop s) := by
  cases h
  rfl

theorem execJmp_next {a : Byte} {s t : State} (h : exec (.jmp a) s = .next t) : t = setPc (addr8 a) s := by
  cases h
  rfl

theorem skipOrFault_next {e : CoreError} {policy : Policy} {op : Byte} {s t : State}
    (h : skipOrFault e policy op s = .next t) :
    (policy = .fatal ∧ t = raise e s) ∨ (policy = .reportAndContinue ∧ t = advance op (emitDiag op s)) := by
  rcases skipOrFault_cases e policy op s with ⟨hp, e'⟩ | ⟨hp, e'⟩ <;> rw [e'] at h <;> cases h
  · exact .inl ⟨hp, rfl⟩
  · exact .inr ⟨hp, rfl⟩

end Sys2Proof.Machine
end

