-- ==== Sys2Proof/Laws/PerInstr.lean ====
section
/-! SUPPORT. Statements made per instruction: one lemma per constructor. -/

namespace Sys2Proof.Laws

/-- The family EncodingShape: an instruction's bytes start with its opcode, and the number of bytes after it is the
number of operands the decoder consumes: the opcode's arity for a defined instruction (R62, R65), none for a
placeholder (R82). -/
def EncodingShape.Statement (i : Instr) : Prop :=
  ∃ op operands, encode i = op :: operands ∧
    operands.length = if i.placeholder? = none then opcodeArity op else 0

theorem EncodingShape.halt : EncodingShape.Statement (.halt) :=
  ⟨0x01, [], rfl, rfl⟩

theorem EncodingShape.ldi (a : Byte) (b : Byte) : EncodingShape.Statement (.ldi a b) :=
  ⟨0x82, [a, b], rfl, rfl⟩

theorem EncodingShape.push (a : Byte) : EncodingShape.Statement (.push a) :=
  ⟨0x45, [a], rfl, rfl⟩

theorem EncodingShape.pop (a : Byte) : EncodingShape.Statement (.pop a) :=
  ⟨0x46, [a], rfl, rfl⟩

theorem EncodingShape.prn (a : Byte) : EncodingShape.Statement (.prn a) :=
  ⟨0x47, [a], rfl, rfl⟩

theorem EncodingShape.mul (a : Byte) (b : Byte) : EncodingShape.Statement (.mul a b) :=
  ⟨0xA2, [a, b], rfl, rfl⟩

theorem EncodingShape.jmp (a : Byte) : EncodingShape.Statement (.jmp a) :=
  ⟨0x54, [a], rfl, rfl⟩

theorem EncodingShape.add (op : Byte) : EncodingShape.Statement (.add op) :=
  ⟨op, [], rfl, rfl⟩

theorem EncodingShape.sub (op : Byte) : EncodingShape.Statement (.sub op) :=
  ⟨op, [], rfl, rfl⟩

theorem EncodingShape.div (op : Byte) : EncodingShape.Statement (.div op) :=
  ⟨op, [], rfl, rfl⟩

theorem EncodingShape.cmp (op : Byte) : EncodingShape.Statement (.cmp op) :=
  ⟨op, [], rfl, rfl⟩

theorem EncodingShape.and (op : Byte) : EncodingShape.Statement (.and op) :=
  ⟨op, [], rfl, rfl⟩

theorem EncodingShape.or (op : Byte) : EncodingShape.Statement (.or op) :=
  ⟨op, [], rfl, rfl⟩

theorem EncodingShape.xor (op : Byte) : EncodingShape.Statement (.xor op) :=
  ⟨op, [], rfl, rfl⟩

theorem EncodingShape.not (op : Byte) : EncodingShape.Statement (.not op) :=
  ⟨op, [], rfl, rfl⟩

theorem EncodingShape.shl (op : Byte) : EncodingShape.Statement (.shl op) :=
  ⟨op, [], rfl, rfl⟩

theorem EncodingShape.shr (op : Byte) : EncodingShape.Statement (.shr op) :=
  ⟨op, [], rfl, rfl⟩

theorem EncodingShape.mod (op : Byte) : EncodingShape.Statement (.mod op) :=
  ⟨op, [], rfl, rfl⟩

theorem EncodingShape.inc (op : Byte) : EncodingShape.Statement (.inc op) :=
  ⟨op, [], rfl, rfl⟩

theorem EncodingShape.dec (op : Byte) : EncodingShape.Statement (.dec op) :=
  ⟨op, [], rfl, rfl⟩

theorem EncodingShape.call (op : Byte) : EncodingShape.Statement (.call op) :=
  ⟨op, [], rfl, rfl⟩

theorem EncodingShape.ret (op : Byte) : EncodingShape.Statement (.ret op) :=
  ⟨op, [], rfl, rfl⟩

theorem EncodingShape.int (op : Byte) : EncodingShape.Statement (.int op) :=
  ⟨op, [], rfl, rfl⟩

theorem EncodingShape.iret (op : Byte) : EncodingShape.Statement (.iret op) :=
  ⟨op, [], rfl, rfl⟩

theorem EncodingShape.jeq (op : Byte) : EncodingShape.Statement (.jeq op) :=
  ⟨op, [], rfl, rfl⟩

theorem EncodingShape.jne (op : Byte) : EncodingShape.Statement (.jne op) :=
  ⟨op, [], rfl, rfl⟩

theorem EncodingShape.jgt (op : Byte) : EncodingShape.Statement (.jgt op) :=
  ⟨op, [], rfl, rfl⟩

theorem EncodingShape.jlt (op : Byte) : EncodingShape.Statement (.jlt op) :=
  ⟨op, [], rfl, rfl⟩

theorem EncodingShape.jle (op : Byte) : EncodingShape.Statement (.jle op) :=
  ⟨op, [], rfl, rfl⟩

theorem EncodingShape.jge (op : Byte) : EncodingShape.Statement (.jge op) :=
  ⟨op, [], rfl, rfl⟩

theorem EncodingShape.ld (op : Byte) : EncodingShape.Statement (.ld op) :=
  ⟨op, [], rfl, rfl⟩

theorem EncodingShape.st (op : Byte) : EncodingShape.Statement (.st op) :=
  ⟨op, [], rfl, rfl⟩

theorem EncodingShape.nop (op : Byte) : EncodingShape.Statement (.nop op) :=
  ⟨op, [], rfl, rfl⟩

theorem EncodingShape.pra (op : Byte) : EncodingShape.Statement (.pra op) :=
  ⟨op, [], rfl, rfl⟩

end Sys2Proof.Laws
end

