-- ==== Sys2Proof/Laws/Step.lean ====
section
/-! SUPPORT. What a step can do, said once. -/

namespace Sys2Proof.Machine

theorem step_running {s : State} (h : s.status = .running) : step s = cycle s := by
  simp [step, stepOrRest, h]

theorem step_resting {s : State} (h : s.status ≠ .running) : step s = .next s := by
  cases hs : s.status <;> simp_all [step, stepOrRest]

/-- What a cycle can do, by the class of the opcode: the opcode lies beyond memory; it is unregistered; it is a
placeholder; it is a defined instruction, whose operands are decoded from the rest of the window. -/
theorem cycle_cases (s : State) :
    (256 ≤ s.pc.toNat ∧ cycle s = .next (raise (.outOfBounds s.pc.toNat) s)) ∨
    (s.pc.toNat < 256 ∧ classify s.cfg (byteAt s.pc.toNat s) = .unregistered ∧
      cycle s = invalidOpcode (byteAt s.pc.toNat s) s) ∨
    (∃ m, s.pc.toNat < 256 ∧ classify s.cfg (byteAt s.pc.toNat s) = .placeholder m ∧
      cycle s = unimplemented (byteAt s.pc.toNat s) s) ∨
    (∃ d, s.pc.toNat < 256 ∧ classify s.cfg (byteAt s.pc.toNat s) = .defined d ∧
      byteAt s.pc.toNat s = definedOpcode d ∧ decode s.cfg (fetchWindow s) = decodeDefined d (fetchWindow s).tail) := by
  by_cases h : s.pc.toNat < 256
  · right
    have hw := fetchWindow_opcode h
    rcases decode_cons s.cfg (byteAt s.pc.toNat s) (fetchWindow s).tail with ⟨hc, hd⟩ | ⟨m, hc, hd⟩ | ⟨d, hc, ho, hd⟩
    · refine .inl ⟨h, hc, ?_⟩
      rw [hw] at hd
      simp only [cycle, hw]
      simp only [List.tail_cons] at hd
      simp [hd]
    · refine .inr (.inl ⟨m, h, hc, ?_⟩)
      rw [hw] at hd
      simp only [cycle, hw]
      simp only [List.tail_cons] at hd
      simp [hd, exec_toInstr]
    · refine .inr (.inr ⟨d, h, hc, ho, ?_⟩)
      rw [← hd, hw, List.tail_cons]
  · refine .inl ⟨Nat.not_lt.1 h, ?_⟩
    simp [cycle, fetchWindow_beyond (Nat.not_lt.1 h), decode]

/-- What a step that answers a next state has done: rested; raised `OutOfBounds` for a byte at `pc + k` that it needed and
that does not exist; met an unregistered opcode; met a placeholder; or run a defined instruction. -/
inductive StepCase (s t : State) : Prop
  | rested (h : s.status ≠ .running) (e : t = s)
  | beyond (k : Nat) (h : s.status = .running) (hk : k ≤ 2) (hlow : 256 ≤ s.pc.toNat + k)
      (hhigh : s.pc.toNat + k ≤ 256 ∨ k = 0) (e : t = raise (.outOfBounds (s.pc.toNat + k)) s)
  | unregistered (h : s.status = .running) (hpc : s.pc.toNat < 256)
      (hc : classify s.cfg (byteAt s.pc.toNat s) = .unregistered)
      (e : invalidOpcode (byteAt s.pc.toNat s) s = .next t)
  | placeholder (m : Placeholder) (h : s.status = .running) (hpc : s.pc.toNat < 256)
      (hc : classify s.cfg (byteAt s.pc.toNat s) = .placeholder m)
      (hd : ∃ rest, decode s.cfg (fetchWindow s) = .instr (m.toInstr (byteAt s.pc.toNat s)) rest)
      (e : unimplemented (byteAt s.pc.toNat s) s = .next t)
  | defined (i : Instr) (rest : List Byte) (h : s.status = .running) (hpc : s.pc.toNat < 256)
      (hd : decode s.cfg (fetchWindow s) = .instr i rest) (hi : i.placeholder? = none) (e : exec i s = .next t)

theorem step_cases {s t : State} (h : step s = .next t) : StepCase s t := by
  by_cases hs : s.status = .running
  · rw [step_running hs] at h
    rcases cycle_cases s with ⟨h1, h2⟩ | ⟨h1, h2, h3⟩ | ⟨m, h1, h2, h3⟩ | ⟨d, h1, h2, h3, h4⟩
    · rw [h2] at h
      cases h
      exact .beyond 0 hs (by omega) (by omega) (.inr rfl) rfl
    · exact .unregistered hs h1 h2 (h3 ▸ h)
    · refine .placeholder m hs h1 h2 ?_ (h3 ▸ h)
      rw [fetchWindow_opcode h1]
      exact ⟨_, by rw [decode, h2]⟩
    · cases hd : decodeDefined d (fetchWindow s).tail with
      | instr i rest =>
        rw [hd] at h4
        rw [cycle, h4] at h
        exact .defined i rest hs h1 h4 (decodeDefined_instr hd).1 h
      | unregistered op => exact absurd hd (decodeDefined_ne_unregistered _ _ _)
      | missing k =>
        rw [hd] at h4
        rw [cycle, h4] at h
        cases h
        obtain ⟨hk, hlt⟩ := decodeDefined_missing hd
        have ha : opcodeArity (definedOpcode d) ≤ 2 := by cases d <;> decide
        rw [fetchWindow_opcode h1, List.tail_cons] at hk hlt
        refine .beyond k hs (by omega) ?_ (.inl ?_) rfl <;> split_ifs at hk hlt <;> simp at hk hlt <;> omega
  · rw [step_resting hs] at h
    cases h
    exact .rested hs rfl

/-- Three bytes that the host places for the next fetch are what the next cycle fetches. -/
theorem fetchWindow_placeFetchWord {a b c : Byte} {s : State} (hm : s.mem.wf = true) :
    fetchWindow (placeFetchWord [a, b, c] s) = [a, b, c] := by
  have hp : (fetchWordPc s).toNat + 3 ≤ 256 := by
    by_cases h : s.pc.toNat + 3 ≤ 256
    · rw [fetchWordPc, Config.memSize, if_pos h]
      exact h
    · rw [fetchWordPc, Config.memSize, if_neg h]
      decide
  have hb (k : Nat) : byteAt ((fetchWordPc s).toNat + k) (placeFetchWord [a, b, c] s) =
      [a, b, c][k]?.getD (byteAt ((fetchWordPc s).toNat + k) s) := by
    rw [byteAt, placeFetchWord, Memory.read_writeAll _ hm hp, if_pos (Nat.le_add_right _ _),
      Nat.add_sub_cancel_left]
    rfl
  have hpc : (placeFetchWord [a, b, c] s).pc = fetchWordPc s := rfl
  rw [fetchWindow_opcode (by rw [hpc]; omega), hpc, if_pos (by omega), if_pos (by omega)]
  have h0 := hb 0
  have h1 := hb 1
  have h2 := hb 2
  simp at h0 h1 h2
  simp [h0, h1, h2]

/-- The step after `withFetchWord` runs the instruction that the decoder reads from the table word. -/
theorem step_withFetchWord {s : State} {nbits w : Nat} {i : Instr} (hm : s.mem.wf = true)
    (hcfg : s.cfg = defaultParams) (h : decodeTableWord nbits w = some i) :
    step (s.withFetchWord nbits w) = exec i (s.withFetchWord nbits w) := by
  have hw : fetchWindow (s.withFetchWord nbits w) = tableWordBytes nbits w := fetchWindow_placeFetchWord hm
  rw [step_running rfl, cycle, hw, show (s.withFetchWord nbits w).cfg = defaultParams from hcfg]
  unfold decodeTableWord at h
  split at h <;> simp_all

end Sys2Proof.Machine
end

