-- ==== Sys2Proof/Tests/Slice0.lean ====
section
/-! SUPPORT. The model's own tests. Every expected value is written out from spec/: the encodings of R64 and R131, and the
vectors of 95_test_vectors.md, whose row each test names. At the end, for every statement of Certificates/Slice0 that
has hypotheses, a state and operands that meet them. -/

namespace Sys2Proof.Tests

open Sys2Proof.Machine

/-! ### Helpers -/

/-- A running machine with different values in its registers. -/
def demo : State := { State.reset with status := .running, x := #v[6, 7, 0xAB, 3, 0xFF, 0x37, 2, 0xF4] }

/-- `demo` with other values in registers 0 and 1. -/
def demoX01 (p q : Byte) : State := { demo with x := #v[p, q, 0xAB, 3, 0xFF, 0x37, 2, 0xF4] }

/-- The same machine with bytes at an address and the program counter on the first. -/
def demoAt (pc : Nat) (bytes : List Byte) : State :=
  { demo with pc := BitVec.ofNat 9 pc, mem := Memory.writeAll [] pc bytes }

/-- The state a result leads to; the given state if it stops. -/
def stateOr (s : State) : Result → State
  | .next t => t
  | .fault _ => s
  | .refused _ => s

/-- The state after one step. -/
def after (s : State) : State := stateOr s (step s)

/-- The parameters with both policies the other way round. -/
def otherPolicies : Params :=
  { defaultParams with invalidInstructionPolicy := .fatal, unimplementedPolicy := .reportAndContinue }

/-! ### WellFormed: for each check, an ill-formed term that it refuses -/

theorem test_wellFormed_refuses_add_sub_and_following :
    ([.add 0x01, .sub 0x01, .div 0x01, .cmp 0x01, .and 0x01, .or 0x01, .xor 0x01, .not 0x01, .shl 0x01] : List Instr).all (fun i => !i.wellFormed defaultParams) = true := by
  decide

theorem test_wellFormed_refuses_shr_mod_and_following :
    ([.shr 0x01, .mod 0x01, .inc 0x01, .dec 0x01, .call 0x01, .ret 0x01, .int 0x01, .iret 0x01, .jeq 0x01] : List Instr).all (fun i => !i.wellFormed defaultParams) = true := by
  decide

theorem test_wellFormed_refuses_jne_jgt_and_following :
    ([.jne 0x01, .jgt 0x01, .jlt 0x01, .jle 0x01, .jge 0x01, .ld 0x01, .st 0x01, .nop 0x01, .pra 0x01] : List Instr).all (fun i => !i.wellFormed defaultParams) = true := by
  decide

theorem test_wellFormed_refuses_without_placeholders :
    (Instr.nop 0x00).wellFormed { defaultParams with placeholders := [] } = false := by
  decide

theorem test_wellFormed_accepts_every_register_byte :
    (Instr.ldi 0xFF 0x00).wellFormed defaultParams = true := by
  decide

/-! ### Decode: every constructor, by a word written out from the spec's encoding -/

theorem test_decode_halt : decode defaultParams [0b00000001] = .instr .halt [] := by decide

theorem test_decode_ldi : decode defaultParams [0b10000010, 3, 0x7F] = .instr (.ldi 3 0x7F) [] := by decide

theorem test_decode_push : decode defaultParams [0b01000101, 2] = .instr (.push 2) [] := by decide

theorem test_decode_pop : decode defaultParams [0b01000110, 5] = .instr (.pop 5) [] := by decide

theorem test_decode_prn : decode defaultParams [0b01000111, 0] = .instr (.prn 0) [] := by decide

theorem test_decode_mul : decode defaultParams [0b10100010, 0, 1] = .instr (.mul 0 1) [] := by decide

theorem test_decode_jmp : decode defaultParams [0b01010100, 0x20] = .instr (.jmp 0x20) [] := by decide

theorem test_decode_alu :
    decode defaultParams [0b10100000] = .instr (.add 0xA0) [] ∧
    decode defaultParams [0b10100001] = .instr (.sub 0xA1) [] ∧
    decode defaultParams [0b10100011] = .instr (.div 0xA3) [] ∧
    decode defaultParams [0b10100100] = .instr (.mod 0xA4) [] ∧
    decode defaultParams [0b01100101] = .instr (.inc 0x65) [] ∧
    decode defaultParams [0b01100110] = .instr (.dec 0x66) [] := by
  decide

theorem test_decode_compare_logic :
    decode defaultParams [0b10100111] = .instr (.cmp 0xA7) [] ∧
    decode defaultParams [0b10101000] = .instr (.and 0xA8) [] ∧
    decode defaultParams [0b10101010] = .instr (.or 0xAA) [] ∧
    decode defaultParams [0b10101011] = .instr (.xor 0xAB) [] ∧
    decode defaultParams [0b01101001] = .instr (.not 0x69) [] ∧
    decode defaultParams [0b10101100] = .instr (.shl 0xAC) [] ∧
    decode defaultParams [0b10101101] = .instr (.shr 0xAD) [] := by
  decide

theorem test_decode_calls :
    decode defaultParams [0b01010000] = .instr (.call 0x50) [] ∧
    decode defaultParams [0b00010001] = .instr (.ret 0x11) [] ∧
    decode defaultParams [0b01010010] = .instr (.int 0x52) [] ∧
    decode defaultParams [0b00010011] = .instr (.iret 0x13) [] := by
  decide

theorem test_decode_conditional_jumps :
    decode defaultParams [0b01010101] = .instr (.jeq 0x55) [] ∧
    decode defaultParams [0b01010110] = .instr (.jne 0x56) [] ∧
    decode defaultParams [0b01010111] = .instr (.jgt 0x57) [] ∧
    decode defaultParams [0b01011000] = .instr (.jlt 0x58) [] ∧
    decode defaultParams [0b01011001] = .instr (.jle 0x59) [] ∧
    decode defaultParams [0b01011010] = .instr (.jge 0x5A) [] := by
  decide

theorem test_decode_load_store_output :
    decode defaultParams [0b10000011] = .instr (.ld 0x83) [] ∧
    decode defaultParams [0b10000100] = .instr (.st 0x84) [] ∧
    decode defaultParams [0b00000000] = .instr (.nop 0x00) [] ∧
    decode defaultParams [0b01001000] = .instr (.pra 0x48) [] := by
  decide

/-- R67: 222 unregistered bytes under the default map, 249 under the empty one. -/
theorem test_unregistered_count :
    ((List.range 256).filter fun n => classify defaultParams (BitVec.ofNat 8 n) = .unregistered).length = 222 ∧
    ((List.range 256).filter fun n =>
      classify { defaultParams with placeholders := [] } (BitVec.ofNat 8 n) = .unregistered).length = 249 := by
  decide +kernel

/-- The opcode table's numbering: the second byte of an instruction is bits 15..8; operand words without bits are 0. -/
theorem test_decodeTableWord :
    decodeTableWord 24 0x7F0382 = some (.ldi 3 0x7F) ∧ decodeTableWord 8 0x82 = some (.ldi 0 0) ∧
    decodeTableWord 8 0x00 = some (.nop 0x00) ∧ decodeTableWord 8 0x02 = none := by
  decide

theorem test_decode_missing_operand :
    decode defaultParams [0x82, 0x00] = .missing 2 ∧ decode defaultParams [0x82] = .missing 1 ∧
    decode defaultParams [0x45] = .missing 1 ∧ decode defaultParams [] = .missing 0 := by
  decide

theorem test_encode : encode (.mul 2 3) = [0xA2, 2, 3] ∧ encode (.cmp 0xA7) = [0xA7] := by decide

/-! ### Memory and reset -/

theorem test_reset_memory_wf : State.reset.mem.wf = true := by decide

theorem test_reset_registers : State.reset.x = #v[0, 0, 0, 0, 0, 0, 0, 0xF4] := by decide

/-- Writing what an unlisted address reads as removes the entry. -/
theorem test_write_zero_removes : Memory.write [(3, 0x11), (5, 0x22)] 5 0x00 = [(3, 0x11)] := by decide

theorem test_write_inserts_in_order : Memory.write [(3, 0x11), (5, 0x22)] 4 0x33 = [(3, 0x11), (4, 0x33), (5, 0x22)] := by
  decide

/-! ### Instructions, one step each (95_test_vectors.md) -/

/-- H2: HALT in the last byte of memory ends cleanly. -/
theorem test_halt_at_top :
    (after (demoAt 0xFF [0x01])).status = .halted ∧ (after (demoAt 0xFF [0x01])).pc = 0x100 ∧
    (after (demoAt 0xFF [0x01])).err = none := by
  decide

/-- L8: LDI ends at the top of memory. -/
theorem test_ldi_top :
    (after (demoAt 0xFD [0x82, 2, 0x33])).x = #v[6, 7, 0x33, 3, 0xFF, 0x37, 2, 0xF4] ∧
    (after (demoAt 0xFD [0x82, 2, 0x33])).pc = 0x100 := by
  decide

/-- L5: the whole register byte is compared. -/
theorem test_ldi_invalid_register :
    (after (demoAt 0 [0x82, 0xFF, 5])).err = some (.invalidRegister 0xFF) ∧
    (after (demoAt 0 [0x82, 0xFF, 5])).x = demo.x ∧ (after (demoAt 0 [0x82, 0xFF, 5])).pc = 0 := by
  decide

/-- PU3: PUSH R7 stores the decremented pointer. -/
theorem test_push_sp : byteAt 0xF3 (after (demoAt 0x06 [0x45, 7])) = 0xF3 ∧ sp (after (demoAt 0x06 [0x45, 7])) = 0xF3 := by
  decide

/-- PU2: the stack pointer wraps at 0. -/
theorem test_push_wraps :
    byteAt 0xFF (after { demoAt 0x06 [0x45, 1] with x := #v[0, 0x77, 0, 0, 0, 0, 0, 0x00] }) = 0x77 ∧
    sp (after { demoAt 0x06 [0x45, 1] with x := #v[0, 0x77, 0, 0, 0, 0, 0, 0x00] }) = 0xFF := by
  decide

/-- PO3: POP R7 ends at the popped byte plus 1. -/
theorem test_pop_sp :
    sp (after { demoAt 0x0A [0x46, 7] with x := #v[0, 0, 0, 0, 0, 0, 0, 0xF3], mem := [(0x0A, 0x46), (0x0B, 7), (0xF3, 0x20)] }) =
      0x21 := by
  decide

/-- PO2: the stack pointer wraps at 255. -/
theorem test_pop_wraps :
    (after { demoAt 0 [0x46] with x := #v[0, 0, 0, 0, 0, 0, 0, 0xFF], mem := [(0, 0x46), (0xFF, 0x12)] }).x =
      #v[0x12, 0, 0, 0, 0, 0, 0, 0x00] := by
  decide

/-- PR2: an unsigned byte goes to the output. -/
theorem test_prn : (after (demoAt 0x09 [0x47, 4])).out = [0xFF] ∧ (after (demoAt 0x09 [0x47, 4])).pc = 0x0B := by
  decide

/-- The host renders 0xFF as 255 (R103). -/
theorem test_render : renderByte 0xFF = "255" ∧ renderByte 0x00 = "0" := by decide

/-- M4: 255 * 255 = 65025 = 0xFE01. -/
theorem test_mul_wraps : (after (demoAt 0 [0xA2, 4, 4])).x = #v[6, 7, 0xAB, 3, 0x01, 0x37, 2, 0xF4] := by decide

/-- M12: `a` is checked before `b`. -/
theorem test_mul_invalid_registers : (after (demoAt 0 [0xA2, 9, 10])).err = some (.invalidRegister 9) := by decide

/-- J1: no advance after the jump. -/
theorem test_jmp : (after (demoAt 0x03 [0x54, 0x20])).pc = 0x20 := by decide

/-- J3: the operand is the address; register 2 is not read. -/
theorem test_jmp_operand_is_address : (after (demoAt 0x10 [0x54, 0x02])).pc = 0x02 := by decide

/-- N6: an unregistered opcode with arity field 3 in the last byte. -/
theorem test_unregistered :
    (after (demoAt 0xFF [0xC3])).diag = [0xC3] ∧ (after (demoAt 0xFF [0xC3])).pc = 0x103 ∧
    (after (demoAt 0xFF [0xC3])).status = .running := by
  decide

/-- N8: the same class under the fatal policy. -/
theorem test_unregistered_fatal :
    (after { demoAt 0x06 [0x02] with cfg := otherPolicies }).err = some (.invalidInstruction 0x02) ∧
    (after { demoAt 0x06 [0x02] with cfg := otherPolicies }).pc = 0x06 := by
  decide

/-- X1. -/
theorem test_add :
    (after (demoAt 0x20 [0xA0])).err = some (.unimplementedInstruction 0xA0) ∧ (after (demoAt 0x20 [0xA0])).pc = 0x20 := by
  decide

/-- The example of R133. -/
theorem test_sub :
    (after (demoAt 0x20 [0xA1])).err = some (.unimplementedInstruction 0xA1) ∧ (after (demoAt 0x20 [0xA1])).pc = 0x20 := by
  decide

/-- The example of R134. -/
theorem test_div :
    (after (demoAt 0x20 [0xA3])).err = some (.unimplementedInstruction 0xA3) ∧ (after (demoAt 0x20 [0xA3])).pc = 0x20 := by
  decide

/-- X3: not OutOfBounds, though no operand follows. -/
theorem test_cmp :
    (after (demoAt 0xFF [0xA7])).err = some (.unimplementedInstruction 0xA7) ∧ (after (demoAt 0xFF [0xA7])).pc = 0xFF := by
  decide

/-- The example of R136. -/
theorem test_and :
    (after (demoAt 0x20 [0xA8])).err = some (.unimplementedInstruction 0xA8) ∧ (after (demoAt 0x20 [0xA8])).pc = 0x20 := by
  decide

/-- The example of R137. -/
theorem test_or :
    (after (demoAt 0x20 [0xAA])).err = some (.unimplementedInstruction 0xAA) ∧ (after (demoAt 0x20 [0xAA])).pc = 0x20 := by
  decide

/-- The example of R138. -/
theorem test_xor :
    (after (demoAt 0x20 [0xAB])).err = some (.unimplementedInstruction 0xAB) ∧ (after (demoAt 0x20 [0xAB])).pc = 0x20 := by
  decide

/-- The example of R139. -/
theorem test_not :
    (after (demoAt 0x20 [0x69])).err = some (.unimplementedInstruction 0x69) ∧ (after (demoAt 0x20 [0x69])).pc = 0x20 := by
  decide

/-- The example of R140. -/
theorem test_shl :
    (after (demoAt 0x20 [0xAC])).err = some (.unimplementedInstruction 0xAC) ∧ (after (demoAt 0x20 [0xAC])).pc = 0x20 := by
  decide

/-- The example of R141. -/
theorem test_shr :
    (after (demoAt 0x20 [0xAD])).err = some (.unimplementedInstruction 0xAD) ∧ (after (demoAt 0x20 [0xAD])).pc = 0x20 := by
  decide

/-- The example of R142. -/
theorem test_mod :
    (after (demoAt 0x20 [0xA4])).err = some (.unimplementedInstruction 0xA4) ∧ (after (demoAt 0x20 [0xA4])).pc = 0x20 := by
  decide

/-- The example of R143. -/
theorem test_inc :
    (after (demoAt 0x20 [0x65])).err = some (.unimplementedInstruction 0x65) ∧ (after (demoAt 0x20 [0x65])).pc = 0x20 := by
  decide

/-- The example of R144. -/
theorem test_dec :
    (after (demoAt 0x20 [0x66])).err = some (.unimplementedInstruction 0x66) ∧ (after (demoAt 0x20 [0x66])).pc = 0x20 := by
  decide

/-- The example of R145. -/
theorem test_call :
    (after (demoAt 0x20 [0x50])).err = some (.unimplementedInstruction 0x50) ∧ (after (demoAt 0x20 [0x50])).pc = 0x20 := by
  decide

/-- The example of R146. -/
theorem test_ret :
    (after (demoAt 0x20 [0x11])).err = some (.unimplementedInstruction 0x11) ∧ (after (demoAt 0x20 [0x11])).pc = 0x20 := by
  decide

/-- The example of R147. -/
theorem test_int :
    (after (demoAt 0x20 [0x52])).err = some (.unimplementedInstruction 0x52) ∧ (after (demoAt 0x20 [0x52])).pc = 0x20 := by
  decide

/-- The example of R148. -/
theorem test_iret :
    (after (demoAt 0x20 [0x13])).err = some (.unimplementedInstruction 0x13) ∧ (after (demoAt 0x20 [0x13])).pc = 0x20 := by
  decide

/-- The example of R149. -/
theorem test_jeq :
    (after (demoAt 0x20 [0x55])).err = some (.unimplementedInstruction 0x55) ∧ (after (demoAt 0x20 [0x55])).pc = 0x20 := by
  decide

/-- The example of R150. -/
theorem test_jne :
    (after (demoAt 0x20 [0x56])).err = some (.unimplementedInstruction 0x56) ∧ (after (demoAt 0x20 [0x56])).pc = 0x20 := by
  decide

/-- The example of R151. -/
theorem test_jgt :
    (after (demoAt 0x20 [0x57])).err = some (.unimplementedInstruction 0x57) ∧ (after (demoAt 0x20 [0x57])).pc = 0x20 := by
  decide

/-- The example of R152. -/
theorem test_jlt :
    (after (demoAt 0x20 [0x58])).err = some (.unimplementedInstruction 0x58) ∧ (after (demoAt 0x20 [0x58])).pc = 0x20 := by
  decide

/-- The example of R153. -/
theorem test_jle :
    (after (demoAt 0x20 [0x59])).err = some (.unimplementedInstruction 0x59) ∧ (after (demoAt 0x20 [0x59])).pc = 0x20 := by
  decide

/-- The example of R154. -/
theorem test_jge :
    (after (demoAt 0x20 [0x5A])).err = some (.unimplementedInstruction 0x5A) ∧ (after (demoAt 0x20 [0x5A])).pc = 0x20 := by
  decide

/-- The example of R155. -/
theorem test_ld :
    (after (demoAt 0x20 [0x83])).err = some (.unimplementedInstruction 0x83) ∧ (after (demoAt 0x20 [0x83])).pc = 0x20 := by
  decide

/-- The example of R156. -/
theorem test_st :
    (after (demoAt 0x20 [0x84])).err = some (.unimplementedInstruction 0x84) ∧ (after (demoAt 0x20 [0x84])).pc = 0x20 := by
  decide

/-- X2. -/
theorem test_nop :
    (after (demoAt 0x20 [0x00])).err = some (.unimplementedInstruction 0x00) ∧ (after (demoAt 0x20 [0x00])).pc = 0x20 := by
  decide

/-- The example of R158. -/
theorem test_pra :
    (after (demoAt 0x20 [0x48])).err = some (.unimplementedInstruction 0x48) ∧ (after (demoAt 0x20 [0x48])).pc = 0x20 := by
  decide

/-- X4, X5: reported and skipped under the other policy, whatever the control-flow bit. -/
theorem test_placeholder_reported :
    (after { demoAt 0x20 [0xA0] with cfg := otherPolicies }).pc = 0x23 ∧
    (after { demoAt 0x20 [0x55] with cfg := otherPolicies }).pc = 0x22 ∧
    (after { demoAt 0x20 [0x55] with cfg := otherPolicies }).diag = [0x55] := by
  decide

/-- X6: with no placeholders the byte is unregistered. -/
theorem test_no_placeholders :
    (after { demoAt 0x20 [0xA0] with cfg := { defaultParams with placeholders := [] } }).diag = [0xA0] := by
  decide

/-- F1, F2: no fetch wraps around. -/
theorem test_fetch_beyond :
    (after (demoAt 0x100 [])).err = some (.outOfBounds 0x100) ∧ (after (demoAt 0x103 [])).err = some (.outOfBounds 0x103) := by
  decide

/-- A1, A4, A6, A8: the ALU operations no defined opcode selects, and a selector outside the four (R116), whose error
does not depend on the register indices. -/
theorem test_alu :
    aluApply .add 0 1 (demoX01 200 100) = .ok (demoX01 44 100) ∧ aluApply .sub 0 1 (demoX01 3 5) = .ok (demoX01 254 5) ∧
    aluApply .div 0 1 (demoX01 200 7) = .ok (demoX01 28 7) ∧
    aluApply .div 0 1 (demoX01 9 0) = .error (.divisionByZero 1) ∧
    aluApply (.unknown 4) 0 1 demo = .error .unsupportedOperation ∧
    aluApply (.unknown 4) 8 0xFF demo = .error .unsupportedOperation :=
  ⟨rfl, rfl, rfl, rfl, rfl, rfl⟩

/-- LD1, LD2, LD4: loads from address 0; a shorter second load; a value above 255. -/
theorem test_load :
    (load [0x82, 0x00, 0x08] State.reset).1.mem = [(0, 0x82), (2, 0x08)] ∧
    (load [0x01] (load [0x82, 0x00, 0x08] State.reset).1).1.mem = [(0, 0x01), (2, 0x08)] ∧
    (load [0x1FF] State.reset).1.mem = [(0, 0xFF)] := by
  decide

/-- Error codes in the order of R170, and 0 for none. -/
theorem test_error_codes :
    errCode State.reset = 0 ∧ CoreError.code (.outOfBounds 256) = 1 ∧ CoreError.code (.invalidRegister 8) = 2 ∧
    CoreError.code (.invalidInstruction 2) = 3 ∧ CoreError.code (.unimplementedInstruction 0) = 4 ∧
    CoreError.code .unsupportedOperation = 5 ∧ CoreError.code (.divisionByZero 1) = 6 := by
  decide

/-- R202, P10: reset, nothing loaded, start: the first cycle meets NOP's byte. -/
theorem test_start_without_load :
    (after (command .start State.reset)).err = some (.unimplementedInstruction 0x00) := by
  decide

/-- From reset, the fetch word is the next instruction. -/
theorem test_withFetchWord : step (State.reset.withFetchWord 24 0x7F0382) = exec (.ldi 3 0x7F) (State.reset.withFetchWord 24 0x7F0382) := by
  rfl

/-! ### Witnesses: for each statement with hypotheses, a state and operands that meet them -/

theorem witness_DefinedOpcodesDecode :
    (0xA0 : Byte) ∉ ([0x01, 0x82, 0x45, 0x46, 0x47, 0xA2, 0x54] : List Byte) ∧
    decode defaultParams [0xA0] = .instr (.add 0xA0) [] := by
  decide

theorem witness_OpcodeClassesPartitionBytes :
    (0x00 : Byte) ∉ ([0x01, 0x82, 0x45, 0x46, 0x47, 0xA2, 0x54] : List Byte) ∧
    defaultParams.placeholderAt 0x00 = some .nop ∧
    (0xFF : Byte) ∉ ([0x01, 0x82, 0x45, 0x46, 0x47, 0xA2, 0x54] : List Byte) ∧
    defaultParams.placeholderAt 0xFF = none := by
  decide

theorem witness_ArityBitsMatchOperandCount :
    decode defaultParams (0x54 :: [0xFF]) = .instr (.jmp 0xFF) [] ∧ (Instr.jmp 0xFF).placeholder? = none := by
  decide

theorem witness_DecodeOfEncode : defaultParams.wf = true ∧ (Instr.pra 0x48).wellFormed defaultParams = true := by decide

theorem witness_EncodeOfDecode : decode defaultParams [0xA2, 9, 10, 1] = .instr (.mul 9 10) [1] := by decide

theorem witness_UnconsumedBytesHaveNoInfluence : decode defaultParams [0x11, 7] = .instr (.ret 0x11) [7] := by decide

theorem witness_DefaultPlaceholderBytesDecode : defaultParams.placeholders = defaultPlaceholders := rfl

theorem witness_StepRunsDecodedInstruction :
    (demoAt 0xFE [0x47, 1]).status = .running ∧
    decode (demoAt 0xFE [0x47, 1]).cfg (fetchWindow (demoAt 0xFE [0x47, 1])) = .instr (.prn 1) [] := by
  decide

theorem witness_StepRunsInstructionInMemory :
    (demoAt 0xFD [0x82, 2, 0x33]).status = .running ∧ (demoAt 0xFD [0x82, 2, 0x33]).cfg.wf = true ∧
    (Instr.ldi 2 0x33).wellFormed (demoAt 0xFD [0x82, 2, 0x33]).cfg = true ∧
    (demoAt 0xFD [0x82, 2, 0x33]).pc.toNat + (encode (.ldi 2 0x33)).length ≤ 256 ∧
    ∀ (k : Nat) (h : k < (encode (.ldi 2 0x33)).length),
      byteAt ((demoAt 0xFD [0x82, 2, 0x33]).pc.toNat + k) (demoAt 0xFD [0x82, 2, 0x33]) = (encode (.ldi 2 0x33))[k] := by
  decide

theorem witness_NoCycleOutsideRunning : State.reset.status ≠ .running := by decide

theorem witness_StepFollowsDispatchAlgorithm : demo.status = .running := rfl

theorem witness_OpcodeFetchBeyondMemoryRaises :
    (demoAt 0x100 []).status = .running ∧ 256 ≤ (demoAt 0x100 []).pc.toNat := by
  decide

theorem witness_MissingOperandRaises :
    ((demoAt 0xFF [0x54]).status = .running ∧ (demoAt 0xFF [0x54]).pc.toNat = 255 ∧
      byteAt 255 (demoAt 0xFF [0x54]) = definedOpcode .jmp ∧ Defined.jmp ≠ .halt) ∧
    ((demoAt 0xFE [0xA2, 9]).status = .running ∧ (demoAt 0xFE [0xA2, 9]).pc.toNat = 254 ∧
      byteAt 254 (demoAt 0xFE [0xA2, 9]) = definedOpcode .mul) ∧
    ((demoAt 0xFF [0x01]).status = .running ∧ (demoAt 0xFF [0x01]).pc.toNat < 256 ∧
      byteAt 255 (demoAt 0xFF [0x01]) = definedOpcode .halt) := by
  decide

theorem witness_UnregisteredOpcodeReportedOrRaised :
    (demoAt 0xFF [0xC3]).status = .running ∧ (demoAt 0xFF [0xC3]).pc.toNat < 256 ∧
    byteAt (demoAt 0xFF [0xC3]).pc.toNat (demoAt 0xFF [0xC3]) = 0xC3 ∧
    classify defaultParams 0xC3 = .unregistered ∧ classify otherPolicies 0xC3 = .unregistered ∧
    defaultParams.invalidInstructionPolicy = .reportAndContinue ∧ otherPolicies.invalidInstructionPolicy = .fatal := by
  decide

theorem witness_PlaceholderOpcodeRaisedOrReported :
    (demoAt 0xFF [0xA7]).status = .running ∧ (demoAt 0xFF [0xA7]).pc.toNat < 256 ∧
    byteAt (demoAt 0xFF [0xA7]).pc.toNat (demoAt 0xFF [0xA7]) = 0xA7 ∧
    classify defaultParams 0xA7 = .placeholder .cmp ∧ classify otherPolicies 0xA7 = .placeholder .cmp ∧
    defaultParams.unimplementedPolicy = .fatal ∧ otherPolicies.unimplementedPolicy = .reportAndContinue := by
  decide

theorem witness_DefaultPlaceholderRows :
    (demoAt 0x20 [0xA0]).status = .running ∧ (demoAt 0x20 [0xA0]).pc.toNat < 256 ∧
    (demoAt 0x20 [0xA0]).cfg.placeholders = defaultPlaceholders ∧ otherPolicies.placeholders = defaultPlaceholders ∧
    byteAt (demoAt 0x20 [0xA0]).pc.toNat (demoAt 0x20 [0xA0]) = 0xA0 ∧
    defaultParams.unimplementedPolicy = .fatal ∧ otherPolicies.unimplementedPolicy = .reportAndContinue := by
  decide

theorem witness_LdiWritesImmediate : (7 : Byte).toNat < 8 := by decide

theorem witness_PushStoresAtDecrementedPointer : (7 : Byte).toNat < 8 ∧ demo.mem.wf = true := by decide

theorem witness_PopLoadsThenIncrements : (7 : Byte).toNat < 8 := by decide

theorem witness_PrnAppendsRegister :
    (7 : Byte).toNat < 8 ∧
    ((demoAt 0xFF [0x47]).status = .running ∧ byteAt (demoAt 0xFF [0x47]).pc.toNat (demoAt 0xFF [0x47]) = 0b01000111 ∧
      (demoAt 0xFF [0x47]).pc.toNat = 255) ∧
    ((demoAt 0xFE [0x47, 8]).status = .running ∧
      byteAt (demoAt 0xFE [0x47, 8]).pc.toNat (demoAt 0xFE [0x47, 8]) = 0b01000111 ∧
      (demoAt 0xFE [0x47, 8]).pc.toNat < 255 ∧
      byteAt ((demoAt 0xFE [0x47, 8]).pc.toNat + 1) (demoAt 0xFE [0x47, 8]) = 8 ∧ 8 ≤ (8 : Byte).toNat) ∧
    (byteAt ((demoAt 0xFE [0x47, 7]).pc.toNat + 1) (demoAt 0xFE [0x47, 7]) = 7 ∧ (7 : Byte).toNat < 8) := by
  decide

theorem witness_MulWritesLowByteOfProduct : (7 : Byte).toNat < 8 ∧ (0 : Byte).toNat < 8 := by decide

theorem witness_PlaceholdersRaiseUnimplemented :
    demo.cfg.unimplementedPolicy = .fatal ∧
    ({ demo with cfg := otherPolicies } : State).cfg.unimplementedPolicy = .reportAndContinue := by
  decide

theorem witness_InvalidRegisterRaises :
    8 ≤ (8 : Byte).toNat ∧ (7 : Byte).toNat < 8 ∧ 8 ≤ (0xFF : Byte).toNat ∧ ∃ t, exec (.jmp 9) demo = .next t :=
  ⟨by decide, by decide, by decide, _, rfl⟩

theorem witness_AluAppliesOrLeavesState :
    (∃ n, AluOp.unknown 4 = .unknown n) ∧ (∀ n, AluOp.div ≠ .unknown n) ∧
    8 ≤ (8 : Byte).toNat ∧ (7 : Byte).toNat < 8 ∧ (∃ t, aluApply .div 0 7 demo = .ok t) ∧
    ∃ s' : State, s'.x[0] = demo.x[0] ∧ s'.x[7] = demo.x[7] ∧ s' ≠ demo :=
  ⟨⟨4, rfl⟩, nofun, by decide, by decide, ⟨_, rfl⟩, State.reset.withFetchWord 8 1 |> fun s => { s with x := demo.x }, rfl, rfl, by decide⟩

theorem witness_AluMulKeepsLowByte : (4 : Byte).toNat < 8 ∧ (7 : Byte).toNat < 8 := by decide

theorem witness_AluSumDifferenceQuotient :
    (0 : Byte).toNat < 8 ∧ (7 : Byte).toNat < 8 ∧ demo.x[7].toNat ≠ 0 ∧ State.reset.x[0].toNat = 0 := by
  decide

theorem witness_LdiMulFrame :
    (∃ t, exec (.ldi 7 0xFF) demo = .next t) ∧ (∃ t, exec (.mul 7 0) demo = .next t) ∧ ∃ t, exec (.mul 1 8) demo = .next t :=
  ⟨⟨_, rfl⟩, ⟨_, rfl⟩, _, rfl⟩

theorem witness_PushFrame : (∃ t, exec (.push 7) demo = .next t) ∧ ∃ t, exec (.push 8) demo = .next t :=
  ⟨⟨_, rfl⟩, _, rfl⟩

theorem witness_PopFrame : (∃ t, exec (.pop 7) demo = .next t) ∧ ∃ t, exec (.pop 8) demo = .next t :=
  ⟨⟨_, rfl⟩, _, rfl⟩

theorem witness_HaltPrnJmpFrame :
    (∃ t, exec .halt demo = .next t) ∧ (∃ t, exec (.prn 7) demo = .next t) ∧ (∃ t, exec (.prn 8) demo = .next t) ∧
    ∃ t, exec (.jmp 0xFF) demo = .next t :=
  ⟨⟨_, rfl⟩, ⟨_, rfl⟩, ⟨_, rfl⟩, _, rfl⟩

theorem witness_PlaceholderFrame :
    (Instr.iret 0x13).placeholder? = some (.iret, 0x13) ∧ (∃ t, exec (.iret 0x13) demo = .next t) ∧
    demo.cfg.unimplementedPolicy = .fatal ∧ (∃ t, exec (.iret 0x13) { demo with cfg := otherPolicies } = .next t) ∧
    otherPolicies.unimplementedPolicy = .reportAndContinue :=
  ⟨rfl, ⟨_, rfl⟩, rfl, ⟨_, rfl⟩, rfl⟩

theorem witness_FlagsNeitherReadNorWritten : ∃ t, step (demoAt 0 [0xA2, 0, 1]) = .next t := ⟨_, rfl⟩

theorem witness_OnlyPushWritesMemory :
    ∃ t, step (demoAt 0x06 [0x45, 2]) = .next t ∧ byteAt 0xF3 t ≠ byteAt 0xF3 (demoAt 0x06 [0x45, 2]) :=
  ⟨_, rfl, by decide⟩

theorem witness_StreamsOnlyGrow :
    (∃ t, step (demoAt 0x09 [0x47, 0]) = .next t) ∧ ∃ t, step (demoAt 0x10 [0xFF]) = .next t :=
  ⟨⟨_, rfl⟩, _, rfl⟩

/-- The second step is a HALT, the third latches an error. -/
theorem witness_StatusTransitionsAreExactly :
    (∃ t, react (.command .start) State.reset = .next t ∧ t.status ≠ State.reset.status) ∧
    (∃ t, react .step (demoAt 0 [0x01]) = .next t ∧ t.status ≠ demo.status) ∧
    (∃ t, react .step (demoAt 0 [0x47, 8]) = .next t ∧ t.status ≠ demo.status ∧ t.err = some (.invalidRegister 8)) ∧
    (∃ t, react (.command .reset) demo = .next t ∧ t.status ≠ demo.status) ∧
    State.reset.status = .ready ∧
    decode (demoAt 0 [0x01]).cfg (fetchWindow (demoAt 0 [0x01])) = .instr .halt [0, 0] ∧ demo.status ≠ .ready :=
  ⟨⟨_, rfl, by decide⟩, ⟨_, rfl, by decide⟩, ⟨_, rfl, by decide, rfl⟩, ⟨_, rfl, by decide⟩, rfl, by decide, by decide⟩

theorem witness_HaltedLeftOnlyByReset :
    ({ demo with status := .halted } : State).status = .halted ∧
    ∃ t, react (.command (.load [1])) { demo with status := .halted } = .next t :=
  ⟨rfl, _, rfl⟩

theorem witness_ErrorsArePrecise :
    ∃ t, step (demoAt 0x03 [0x47, 8]) = .next t ∧ t.err ≠ (demoAt 0x03 [0x47, 8]).err :=
  ⟨_, rfl, by decide⟩

theorem witness_OnlyJmpTransfersControl :
    (∃ t, step (demoAt 0x10 [0x54, 0xFF]) = .next t ∧ t.err = none ∧
      decode (demoAt 0x10 [0x54, 0xFF]).cfg (fetchWindow (demoAt 0x10 [0x54, 0xFF])) = .instr (.jmp 0xFF) [0]) ∧
    (demoAt 0xFF [0xC3]).status = .running ∧ (demoAt 0xFF [0xC3]).err = none ∧
    (∃ t, step (demoAt 0xFF [0xC3]) = .next t ∧ t.err = none) ∧
    decode (demoAt 0xFF [0xC3]).cfg (fetchWindow (demoAt 0xFF [0xC3])) = .unregistered 0xC3 :=
  ⟨⟨_, rfl, by decide, by decide⟩, rfl, rfl, ⟨_, rfl, by decide⟩, by decide⟩

theorem witness_PushThenPopRoundTrip : (6 : Byte).toNat < 7 ∧ (0 : Byte).toNat < 7 ∧ demo.mem.wf = true := by decide

theorem witness_StoreIsSeenByNextFetch :
    ∃ t u : State, (6 : Byte).toNat < 7 ∧ demo.mem.wf = true ∧ exec (.push 6) demo = .next t ∧ u.mem = t.mem ∧
      u.pc.toNat = (demo.x[7] - 1).toNat :=
  ⟨_, { stateOr demo (exec (.push 6) demo) with pc := 0xF3 }, by decide, by decide, rfl, rfl, by decide⟩

theorem witness_MemoryCellsReadBack : demo.mem.wf = true ∧ (255 : Nat) < 256 := by decide

theorem witness_AccessBeyondMemoryRaises : (256 : Nat) ≤ 256 ∧ memRead 256 demo = .error (.outOfBounds 256) :=
  ⟨by decide, rfl⟩

theorem witness_InvariantHoldsAtReset : defaultParams.resetMem.wf = true := by decide

/-- Reset memory need not be empty. -/
theorem witness_ReachedStatesAreSafe :
    ({ defaultParams with resetMem := [(0, 0x01)] } : Params).resetMem.wf = true ∧
    ReachedFrom (State.resetWith { defaultParams with resetMem := [(0, 0x01)] })
      (command .start (State.resetWith { defaultParams with resetMem := [(0, 0x01)] })) :=
  ⟨by decide, .event (.command .start) .refl rfl⟩

/-- The invariant holds in a running state that steps on: reset with a program of one jump in memory, started. -/
theorem witness_StepKeepsInvariant :
    ∃ s t : State, Inv s ∧ step s = .next t ∧ t.pc = 0xFF :=
  ⟨{ State.reset with status := .running, mem := [(0, 0x54), (1, 0xFF)] }, _,
    ⟨by decide, by decide, by decide, fun h => absurd rfl h, nofun, nofun, rfl⟩, rfl, by decide⟩

theorem witness_CommandsKeepInvariant : Inv State.reset :=
  ⟨by decide, by decide, by decide, fun h => absurd rfl h, nofun, fun _ => rfl, rfl⟩

theorem witness_LoadPlacesBytes :
    State.reset.status = .ready ∧ (List.replicate 256 0x1FF : List Nat).length ≤ 256 ∧ State.reset.mem.wf = true :=
  ⟨rfl, by rw [List.length_replicate], by decide⟩

theorem witness_LoadRefusedLeavesState :
    State.reset.status = .ready ∧ 256 < (List.replicate 257 0 : List Nat).length ∧ demo.status ≠ .ready :=
  ⟨rfl, by rw [List.length_replicate]; decide, by decide⟩

theorem witness_StartOnlyFromReady : State.reset.status = .ready ∧ demo.status ≠ .ready := by decide

theorem witness_ResetValues : demo.cfg = defaultParams := rfl

end Sys2Proof.Tests
end

section
/-! The error latch: an instruction or a step either keeps it or is one `raise` (R11, R171; decision D7). -/

namespace Sys2Proof.Machine

/-- How a cycle from `s` to `t` leaves the error latch: as it was, or by raising an error and doing nothing else. -/
inductive ErrKeptOrRaised (s : State) : State → Prop
  | kept {t : State} (h : t.err = s.err) : ErrKeptOrRaised s t
  | raised (e : CoreError) : ErrKeptOrRaised s (raise e s)

theorem skipOrFault_errKeptOrRaised {e : CoreError} {policy : Policy} {op : Byte} {s t : State}
    (h : skipOrFault e policy op s = .next t) : ErrKeptOrRaised s t := by
  rcases skipOrFault_next h with ⟨-, rfl⟩ | ⟨-, rfl⟩
  · exact .raised e
  · exact .kept rfl

theorem exec_errKeptOrRaised {i : Instr} {s t : State} (h : exec i s = .next t) : ErrKeptOrRaised s t := by
  cases i with
  | halt =>
    rw [execHalt_next h]
    exact .kept rfl
  | jmp a =>
    rw [execJmp_next h]
    exact .kept rfl
  | ldi a b =>
    rcases execLdi_cases h with ⟨_, rfl⟩ | ⟨-, rfl⟩
    · exact .kept rfl
    · exact .raised _
  | push a =>
    rcases execPush_cases h with ⟨_, rfl⟩ | ⟨-, rfl⟩
    · exact .kept rfl
    · exact .raised _
  | pop a =>
    rcases execPop_cases h with ⟨_, _, rfl, rfl⟩ | ⟨-, rfl⟩
    · exact .kept rfl
    · exact .raised _
  | prn a =>
    rcases execPrn_cases h with ⟨_, rfl⟩ | ⟨-, rfl⟩
    · exact .kept rfl
    · exact .raised _
  | mul a b =>
    rcases execMul_cases h with ⟨_, _, rfl⟩ | ⟨-, rfl⟩ | ⟨-, -, rfl⟩
    · exact .kept rfl
    · exact .raised _
    · exact .raised _
  | _ op => exact skipOrFault_errKeptOrRaised (op := op) h

theorem step_errKeptOrRaised {s t : State} (h : step s = .next t) : ErrKeptOrRaised s t := by
  cases step_cases h with
  | rested _ e => exact .kept (congrArg State.err e)
  | beyond k _ _ _ _ e => exact e ▸ .raised _
  | unregistered _ _ _ e => exact skipOrFault_errKeptOrRaised e
  | placeholder _ _ _ _ _ e => exact skipOrFault_errKeptOrRaised e
  | defined _ _ _ _ _ _ e => exact exec_errKeptOrRaised e

/-- A step that changes anything started in Running: elsewhere it rests. -/
theorem running_of_step_ne {s t : State} (h : step s = .next t) (hne : t ≠ s) : s.status = .running := by
  by_contra hs
  rw [step_resting hs] at h
  cases h
  exact hne rfl

/-- Settles O40: a step keeps the latch or is one `raise`, and `raise` writes the run state and the latch alone. -/
theorem errorsArePrecise : Obligations.ErrorsArePrecise := by
  intro s t h herr
  refine ⟨running_of_step_ne h fun hts => herr (congrArg State.err hts), ?_⟩
  cases step_errKeptOrRaised h with
  | kept hkept => exact absurd hkept herr
  | raised e => rfl

end Sys2Proof.Machine
end

section
/-! What one step can do, said once with its effect: it rests, raises an error that the state explains, skips a reported
opcode, or completes a defined instruction (R80). -/

namespace Sys2Proof

/-- Half of decode-then-encode (R60, R82): the bytes decoded are the instruction's own, then those left over. -/
theorem decode_instr_bytes {cfg : Params} {bytes rest : List Byte} {i : Instr}
    (h : decode cfg bytes = .instr i rest) : bytes = encode i ++ rest := by
  cases bytes with
  | nil => cases h
  | cons op tail =>
    rcases decode_cons cfg op tail with ⟨-, hd⟩ | ⟨m, -, hd⟩ | ⟨d, -, rfl, hd⟩ <;> rw [hd] at h
    · cases h
    · cases h
      rw [encode_toInstr, List.singleton_append]
    · exact (decodeDefined_instr h).2.1

namespace Machine

/-- The state a defined instruction leaves when it completes, with no error raised (R83, R86, R100 to R120). -/
inductive Completed (s : State) : Instr → State → Prop
  | halt : Completed s .halt (advance 0x01 (stop s))
  | jmp (a : Byte) : Completed s (.jmp a) (setPc (addr8 a) s)
  | prn (a : Byte) (ha : a.toNat < 8) :
      Completed s (.prn a) (advance 0x47 (emitOut (getReg ⟨a.toNat, ha⟩ s) s))
  | push (a : Byte) (ha : a.toNat < 8) :
      Completed s (.push a) (advance 0x45 { setSp (sp s - 1) s with
        mem := s.mem.write (sp s - 1).toNat (getReg ⟨a.toNat, ha⟩ (setSp (sp s - 1) s)) })
  | ldi (a b : Byte) (ha : a.toNat < 8) : Completed s (.ldi a b) (advance 0x82 (setReg ⟨a.toNat, ha⟩ b s))
  | pop (a : Byte) (ha : a.toNat < 8) :
      Completed s (.pop a) (advance 0x46 (setSp (sp (setReg ⟨a.toNat, ha⟩ (byteAt (sp s).toNat s) s) + 1)
        (setReg ⟨a.toNat, ha⟩ (byteAt (sp s).toNat s) s)))
  | mul (a b : Byte) (ha : a.toNat < 8) (hb : b.toNat < 8) :
      Completed s (.mul a b)
        (advance 0xA2 (setReg ⟨a.toNat, ha⟩ (getReg ⟨a.toNat, ha⟩ s * getReg ⟨b.toNat, hb⟩ s) s))

/-- A defined instruction completes, or one of its operand bytes names no register. -/
theorem exec_completed_or_invalidRegister {i : Instr} {s t : State} (hi : i.placeholder? = none)
    (h : exec i s = .next t) :
    Completed s i t ∨ ∃ a ∈ (encode i).tail, 8 ≤ a.toNat ∧ t = raise (.invalidRegister a) s := by
  cases i with
  | halt =>
    rw [execHalt_next h]
    exact .inl .halt
  | jmp a =>
    rw [execJmp_next h]
    exact .inl (.jmp a)
  | ldi a b =>
    rcases execLdi_cases h with ⟨ha, rfl⟩ | ⟨ha, rfl⟩
    · exact .inl (.ldi a b ha)
    · exact .inr ⟨a, by simp [encode], ha, rfl⟩
  | push a =>
    rcases execPush_cases h with ⟨ha, rfl⟩ | ⟨ha, rfl⟩
    · exact .inl (.push a ha)
    · exact .inr ⟨a, by simp [encode], ha, rfl⟩
  | pop a =>
    rcases execPop_cases h with ⟨ha, _, rfl, rfl⟩ | ⟨ha, rfl⟩
    · exact .inl (.pop a ha)
    · exact .inr ⟨a, by simp [encode], ha, rfl⟩
  | prn a =>
    rcases execPrn_cases h with ⟨ha, rfl⟩ | ⟨ha, rfl⟩
    · exact .inl (.prn a ha)
    · exact .inr ⟨a, by simp [encode], ha, rfl⟩
  | mul a b =>
    rcases execMul_cases h with ⟨ha, hb, rfl⟩ | ⟨ha, rfl⟩ | ⟨-, hb, rfl⟩
    · exact .inl (.mul a b ha hb)
    · exact .inr ⟨a, by simp [encode], ha, rfl⟩
    · exact .inr ⟨b, by simp [encode], hb, rfl⟩
  | _ op => cases hi

/-- The bytes behind the opcode in the window stand at `pc + 1` and `pc + 2`. -/
theorem byteAt_of_mem_fetchWindow_tail {s : State} {a : Byte} (hpc : s.pc.toNat < 256)
    (h : a ∈ (fetchWindow s).tail) : byteAt (s.pc.toNat + 1) s = a ∨ byteAt (s.pc.toNat + 2) s = a := by
  rw [fetchWindow_opcode hpc, List.tail_cons, List.mem_append] at h
  rcases h with h | h <;> split_ifs at h
  · exact .inl (List.mem_singleton.1 h).symm
  · cases h
  · exact .inr (List.mem_singleton.1 h).symm
  · cases h

/-- An operand byte of the instruction a cycle decodes stands in memory behind the opcode. -/
theorem byteAt_of_mem_operands {s : State} {i : Instr} {rest : List Byte} {a : Byte} (hpc : s.pc.toNat < 256)
    (hd : decode s.cfg (fetchWindow s) = .instr i rest) (ha : a ∈ (encode i).tail) :
    byteAt (s.pc.toNat + 1) s = a ∨ byteAt (s.pc.toNat + 2) s = a := by
  refine byteAt_of_mem_fetchWindow_tail hpc ?_
  rw [decode_instr_bytes hd, List.tail_append_of_ne_nil (encode_ne_nil i)]
  exact List.mem_append_left rest ha

/-- What a step from `s` that answers a next state leaves. That a raised error lies in R170's range needs the bound on
the program counter (R24), which is part of the invariant. -/
inductive StepEffect (s : State) : State → Prop
  | rested (h : s.status ≠ .running) : StepEffect s s
  | raised (e : CoreError) (h : s.status = .running) (he : s.pc.toNat ≤ 259 → errorExplained s e) :
      StepEffect s (raise e s)
  | skipped (h : s.status = .running) (hpc : s.pc.toNat < 256)
      (hc : ∀ d, classify s.cfg (byteAt s.pc.toNat s) ≠ .defined d) :
      StepEffect s (advance (byteAt s.pc.toNat s) (emitDiag (byteAt s.pc.toNat s) s))
  | completed (i : Instr) (rest : List Byte) {t : State} (h : s.status = .running) (hpc : s.pc.toNat < 256)
      (hd : decode s.cfg (fetchWindow s) = .instr i rest) (ht : Completed s i t) : StepEffect s t

theorem step_effect {s t : State} (h : step s = .next t) : StepEffect s t := by
  cases step_cases h with
  | rested hs e =>
    subst e
    exact .rested hs
  | beyond k hs hk hlow hhigh e =>
    subst e
    exact .raised _ hs fun hpc => ⟨hlow, by omega, by omega, by omega⟩
  | unregistered hs hpc hc e =>
    rcases skipOrFault_next e with ⟨hp, rfl⟩ | ⟨-, rfl⟩
    · exact .raised _ hs fun _ => ⟨hp, rfl, hc⟩
    · exact .skipped hs hpc (by simp [hc])
  | placeholder m hs hpc hc _ e =>
    rcases skipOrFault_next e with ⟨hp, rfl⟩ | ⟨-, rfl⟩
    · exact .raised _ hs fun _ => ⟨hp, rfl, m, hc⟩
    · exact .skipped hs hpc (by simp [hc])
  | defined i rest hs hpc hd hi e =>
    rcases exec_completed_or_invalidRegister hi e with ht | ⟨a, ha, ha8, rfl⟩
    · exact .completed i rest hs hpc hd ht
    · exact .raised _ hs fun _ => ⟨ha8, byteAt_of_mem_operands hpc hd ha⟩

end Machine

end Sys2Proof
end

section
/-! The invariant: every step keeps it. -/

namespace Sys2Proof.Machine

/-- Raising an error changes nothing that its explanation looks at. -/
theorem errorExplained_raise {s : State} {e' : CoreError} (e : CoreError) (h : errorExplained s e') :
    errorExplained (raise e s) e' := by
  cases e' <;> exact h

theorem Inv.err_eq_none {s : State} (h : Inv s) (hs : s.status ≠ .halted) : s.err = none := by
  by_contra herr
  exact hs (h.error_only_halted herr)

/-- The invariant where no error is latched and the machine has been started: memory, program counter and flags are
left to see to. -/
theorem Inv.of_err_none {s t : State} (h : Inv s) (hcfg : t.cfg = s.cfg) (hfl : t.fl = s.fl) (herr : t.err = none)
    (hstatus : t.status ≠ .ready) (hmem : t.mem.wf = true) (hpc : t.pc.toNat ≤ 259) : Inv t where
  memory_canonical := hmem
  reset_memory_canonical := hcfg ▸ h.reset_memory_canonical
  pc_bounded := hpc
  error_only_halted := fun hne => absurd herr hne
  error_explained := fun e he => by rw [herr] at he; cases he
  ready_fresh := fun hr => absurd hr hstatus
  flags_reset := hfl.trans h.flags_reset

theorem Inv.raise {s : State} {e : CoreError} (h : Inv s) (he : errorExplained s e) : Inv (raise e s) where
  memory_canonical := h.memory_canonical
  reset_memory_canonical := h.reset_memory_canonical
  pc_bounded := h.pc_bounded
  error_only_halted := fun _ => rfl
  error_explained := fun _ he' => Option.some.inj he' ▸ errorExplained_raise e he
  ready_fresh := nofun
  flags_reset := h.flags_reset

/-- From an opcode address that exists the program counter advances by at most 4, to 259 at most (R24, R83). -/
theorem advance_pc_le {s : State} (op : Byte) (h : s.pc.toNat < 256) : (advance op s).pc.toNat ≤ 259 := by
  have := opcodeArity_lt op
  rw [advance_pc, BitVec.toNat_add, BitVec.toNat_ofNat]
  omega

theorem addr8_le (a : Byte) : (addr8 a).toNat ≤ 259 := by
  have := a.isLt
  simp only [addr8, BitVec.truncate_eq_setWidth, BitVec.toNat_setWidth]
  omega

theorem Completed.keeps_inv {s t : State} {i : Instr} (h : Inv s) (hs : s.status = .running) (hpc : s.pc.toNat < 256)
    (ht : Completed s i t) : Inv t := by
  have hready : s.status ≠ .ready := by simp [hs]
  have herr : s.err = none := h.err_eq_none (by simp [hs])
  have hmem := h.memory_canonical
  cases ht with
  | halt => exact h.of_err_none rfl rfl herr (by simp) hmem (advance_pc_le _ hpc)
  | jmp a => exact h.of_err_none rfl rfl herr hready hmem (addr8_le a)
  | prn a ha => exact h.of_err_none rfl rfl herr hready hmem (advance_pc_le _ hpc)
  | push a ha =>
    exact h.of_err_none rfl rfl herr hready (Memory.wf_write hmem (sp s - 1).isLt) (advance_pc_le _ hpc)
  | ldi a b ha => exact h.of_err_none rfl rfl herr hready hmem (advance_pc_le _ hpc)
  | pop a ha => exact h.of_err_none rfl rfl herr hready hmem (advance_pc_le _ hpc)
  | mul a b ha hb => exact h.of_err_none rfl rfl herr hready hmem (advance_pc_le _ hpc)

/-- Settles O47, by the cases of `step_effect`: a raised error is explained by the state it leaves unchanged, and an
advance starts below address 256. -/
theorem stepKeepsInvariant : Obligations.StepKeepsInvariant := by
  intro s t h hstep
  cases step_effect hstep with
  | rested _ => exact h
  | raised e _ he => exact h.raise (he h.pc_bounded)
  | skipped hs hpc _ =>
    exact h.of_err_none rfl rfl (h.err_eq_none (by simp [hs])) (by simp [hs]) h.memory_canonical
      (advance_pc_le _ hpc)
  | completed i rest hs hpc _ ht => exact ht.keeps_inv h hs hpc

end Sys2Proof.Machine
end

section
/-! Decoding looks at an instruction's own bytes only (R31, R82). -/

namespace Sys2Proof

theorem takeOperand_instr {mk : Byte → Instr} {bytes rest : List Byte} {i : Instr}
    (h : takeOperand mk bytes = .instr i rest) : ∃ a, i = mk a ∧ bytes = a :: rest := by
  cases bytes with
  | nil => cases h
  | cons a tail =>
    cases h
    exact ⟨a, rfl, rfl⟩

theorem takeOperands_instr {mk : Byte → Byte → Instr} {bytes rest : List Byte} {i : Instr}
    (h : takeOperands mk bytes = .instr i rest) : ∃ a b, i = mk a b ∧ bytes = a :: b :: rest := by
  rcases bytes with _ | ⟨a, _ | ⟨b, tail⟩⟩ <;> cases h
  exact ⟨a, b, rfl, rfl⟩

/-- A defined instruction is its opcode and its operands, and decodes from them whatever bytes follow. -/
theorem decodeDefined_operands {d : Defined} {bytes rest : List Byte} {i : Instr}
    (h : decodeDefined d bytes = .instr i rest) :
    ∃ operands, encode i = definedOpcode d :: operands ∧
      ∀ rest', decodeDefined d (operands ++ rest') = .instr i rest' := by
  cases d with
  | halt =>
    cases h
    exact ⟨[], rfl, fun _ => rfl⟩
  | ldi =>
    obtain ⟨a, b, rfl, -⟩ := takeOperands_instr h
    exact ⟨[a, b], rfl, fun _ => rfl⟩
  | push =>
    obtain ⟨a, rfl, -⟩ := takeOperand_instr h
    exact ⟨[a], rfl, fun _ => rfl⟩
  | pop =>
    obtain ⟨a, rfl, -⟩ := takeOperand_instr h
    exact ⟨[a], rfl, fun _ => rfl⟩
  | prn =>
    obtain ⟨a, rfl, -⟩ := takeOperand_instr h
    exact ⟨[a], rfl, fun _ => rfl⟩
  | mul =>
    obtain ⟨a, b, rfl, -⟩ := takeOperands_instr h
    exact ⟨[a, b], rfl, fun _ => rfl⟩
  | jmp =>
    obtain ⟨a, rfl, -⟩ := takeOperand_instr h
    exact ⟨[a], rfl, fun _ => rfl⟩

theorem decode_of_placeholder {cfg : Params} {op : Byte} {m : Placeholder} (h : classify cfg op = .placeholder m)
    (rest : List Byte) : decode cfg (op :: rest) = .instr (m.toInstr op) rest := by
  rw [decode, h]

theorem decode_of_defined {cfg : Params} {op : Byte} {d : Defined} (h : classify cfg op = .defined d)
    (rest : List Byte) : decode cfg (op :: rest) = decodeDefined d rest := by
  rw [decode, h]

/-- Settles O6, by the class of the opcode: a placeholder is its opcode byte alone, and a defined instruction takes its
operands from the front. -/
theorem unconsumedBytesHaveNoInfluence : Obligations.UnconsumedBytesHaveNoInfluence := by
  intro cfg bytes i rest rest' h
  cases bytes with
  | nil => cases h
  | cons op tail =>
    rcases decode_cons cfg op tail with ⟨-, hd⟩ | ⟨m, hc, hd⟩ | ⟨d, hc, rfl, hd⟩ <;> rw [hd] at h
    · cases h
    · cases h
      rw [encode_toInstr]
      exact decode_of_placeholder hc rest'
    · obtain ⟨operands, he, hdecode⟩ := decodeDefined_operands h
      rw [he, List.cons_append, decode_of_defined hc, hdecode]

end Sys2Proof
end

section
/-! The flags register: no operation reads it and none writes it, so that every one of them commutes with setting it
(R26). -/

namespace Sys2Proof.Machine

/-- The state with another value in the flags register. -/
def withFlags (v : Byte) (s : State) : State := { s with fl := v }

/-- The answer of a step, with another value in the flags register of its next state. -/
def answerWithFlags (v : Byte) : Result → Result
  | .next t => .next (withFlags v t)
  | .fault r => .fault r
  | .refused r => .refused r

theorem getReg_withFlags (r : Fin 8) (v : Byte) (s : State) : getReg r (withFlags v s) = getReg r s := rfl

/-- A register operand passes on what its continuation commutes with. -/
theorem withReg_map {a : Byte} {k k' : Fin 8 → Stage} {f : State → State} (h : ∀ r, k' r = (k r).map f) :
    withReg a k' = (withReg a k).map f := by
  rcases withReg_cases a k with ⟨ha, e⟩ | ⟨ha, e⟩ <;> rw [e]
  · exact (withReg_valid ha k').trans (h _)
  · exact withReg_invalid ha k'

theorem memWrite_withFlags (addr : Nat) (w v : Byte) (s : State) :
    memWrite addr w (withFlags v s) = (memWrite addr w s).map (withFlags v) := by
  unfold memWrite
  split_ifs <;> rfl

theorem finish_withFlags {op v : Byte} {s : State} {st st' : Stage} (h : st' = st.map (withFlags v)) :
    finish op (withFlags v s) st' = answerWithFlags v (finish op s st) := by
  subst h
  cases st with
  | error e => rfl
  | ok s' =>
    simp only [Except.map, finish]
    split_ifs <;> rfl

theorem skipOrFault_withFlags (e : CoreError) (policy : Policy) (op v : Byte) (s : State) :
    skipOrFault e policy op (withFlags v s) = answerWithFlags v (skipOrFault e policy op s) := by
  cases policy <;> rfl

theorem aluBinary_withFlags (f : Byte → Byte → Except CoreError Byte) (a b v : Byte) (s : State) :
    aluBinary f a b (withFlags v s) = (aluBinary f a b s).map (withFlags v) := by
  refine withReg_map fun ra => withReg_map fun rb => ?_
  rw [getReg_withFlags, getReg_withFlags]
  cases f (getReg ra s) (getReg rb s) <;> rfl

theorem exec_withFlags (i : Instr) (v : Byte) (s : State) :
    exec i (withFlags v s) = answerWithFlags v (exec i s) := by
  cases i with
  | halt => rfl
  | jmp a => rfl
  | ldi a b => exact finish_withFlags (withReg_map fun _ => rfl)
  | push a => exact finish_withFlags (withReg_map fun _ => memWrite_withFlags _ _ v (setSp (sp s - 1) s))
  | pop a => exact finish_withFlags (withReg_map fun _ => by simp only [memRead_sp]; rfl)
  | prn a => exact finish_withFlags (withReg_map fun _ => rfl)
  | mul a b => exact finish_withFlags (aluBinary_withFlags (fun p q => .ok (p * q)) a b v s)
  | _ op => exact skipOrFault_withFlags _ _ op v s

theorem cycle_withFlags (v : Byte) (s : State) : cycle (withFlags v s) = answerWithFlags v (cycle s) := by
  have hw : decode (withFlags v s).cfg (fetchWindow (withFlags v s)) = decode s.cfg (fetchWindow s) := rfl
  rw [cycle, cycle, hw]
  cases decode s.cfg (fetchWindow s) with
  | missing k => rfl
  | unregistered op => exact skipOrFault_withFlags _ _ op v s
  | instr i rest => exact exec_withFlags i v s

theorem step_withFlags (v : Byte) (s : State) : step (withFlags v s) = answerWithFlags v (step s) := by
  by_cases hs : s.status = .running
  · rw [step_running hs, ← cycle_withFlags]
    exact step_running hs
  · rw [step_resting hs]
    exact step_resting hs

theorem Completed.fl_cfg {s t : State} {i : Instr} (h : Completed s i t) : t.fl = s.fl ∧ t.cfg = s.cfg := by
  cases h with
  | _ => exact ⟨rfl, rfl⟩

theorem step_fl_cfg {s t : State} (h : step s = .next t) : t.fl = s.fl ∧ t.cfg = s.cfg := by
  cases step_effect h with
  | completed i rest _ _ _ ht => exact ht.fl_cfg
  | _ => exact ⟨rfl, rfl⟩

/-- Settles O35: a step commutes with setting the flags. -/
theorem flagsNeitherReadNorWritten : Obligations.FlagsNeitherReadNorWritten := by
  intro s t v h
  obtain ⟨hfl, hcfg⟩ := step_fl_cfg h
  refine ⟨hfl, hcfg, ?_⟩
  calc step (withFlags v s) = answerWithFlags v (step s) := step_withFlags v s
    _ = .next (withFlags v t) := by rw [h]; rfl

end Sys2Proof.Machine
end

section
/-! The streams: a step appends to one of them at most (R35, R36). -/

namespace Sys2Proof.Machine

theorem Completed.out_cases {s t : State} {i : Instr} (h : Completed s i t) :
    t.out = s.out ∨ ∃ (a : Byte) (ha : a.toNat < 8), i = .prn a ∧ t.out = s.out ++ [s.x[a.toNat]] := by
  cases h with
  | prn a ha => exact .inr ⟨a, ha, rfl, rfl⟩
  | _ => exact .inl rfl

theorem Completed.diag_eq {s t : State} {i : Instr} (h : Completed s i t) : t.diag = s.diag := by
  cases h with
  | _ => rfl

/-- Settles O37: a completed PRN appends to the output, a skipped opcode to the diagnostic stream, and nothing else
appends to either. -/
theorem streamsOnlyGrow : Obligations.StreamsOnlyGrow := by
  intro s t h
  cases step_effect h with
  | rested _ => exact ⟨.inl rfl, .inl rfl⟩
  | raised e _ _ => exact ⟨.inl rfl, .inl rfl⟩
  | skipped _ _ hc => exact ⟨.inl rfl, .inr ⟨rfl, hc⟩⟩
  | completed i rest _ _ hd ht =>
    refine ⟨?_, .inl ht.diag_eq⟩
    rcases ht.out_cases with hout | ⟨a, ha, rfl, hout⟩
    · exact .inl hout
    · exact .inr ⟨a, rest, ha, hd, hout⟩

end Sys2Proof.Machine
end

section
/-! The commands of the host, case by case (R33, R34, R200; decisions D23 to D25). -/

namespace Sys2Proof.Machine

theorem command_load_ignored {s : State} (h : s.status ≠ .ready) (bytes : List Nat) :
    command (.load bytes) s = s := by
  simp only [command, load, if_pos h]

/-- A load changes nothing, or, in Ready, stores at most as many bytes as there are cells. -/
theorem command_load_cases (bytes : List Nat) (s : State) :
    command (.load bytes) s = s ∨
    (s.status = .ready ∧ bytes.length ≤ Config.memSize ∧
      command (.load bytes) s =
        { s with mem := s.mem.writeAll Config.loadBase (bytes.map (BitVec.ofNat 8)) }) := by
  by_cases hs : s.status = .ready
  · by_cases hlen : Config.memSize < bytes.length
    · exact .inl (by simp only [command, load, hs, ne_eq, not_true_eq_false, if_false, if_pos hlen])
    · exact .inr ⟨hs, Nat.not_lt.1 hlen,
        by simp only [command, load, hs, ne_eq, not_true_eq_false, if_false, if_neg hlen]⟩
  · exact .inl (command_load_ignored hs bytes)

theorem command_load_status (bytes : List Nat) (s : State) : (command (.load bytes) s).status = s.status := by
  rcases command_load_cases bytes s with e | ⟨-, -, e⟩ <;> rw [e]

theorem command_start_ready {s : State} (h : s.status = .ready) :
    command .start s = { s with status := .running } := if_pos h

theorem command_start_ignored {s : State} (h : s.status ≠ .ready) : command .start s = s := if_neg h

theorem command_reset (s : State) : command .reset s = State.resetWith s.cfg := rfl

/-- Settles O52, by the two cases of start. -/
theorem startOnlyFromReady : Obligations.StartOnlyFromReady :=
  fun _ => ⟨command_start_ready, command_start_ignored⟩

/-- Settles O10: this is how a step outside Running rests. -/
theorem noCycleOutsideRunning : Obligations.NoCycleOutsideRunning :=
  fun _ => step_resting

/-- Settles O39: in Halted a step rests, and load and start are ignored. -/
theorem haltedLeftOnlyByReset : Obligations.HaltedLeftOnlyByReset := by
  intro e s t hs h
  have hready : s.status ≠ .ready := by simp [hs]
  cases e with
  | step =>
    rw [react, step_resting (by simp [hs])] at h
    cases h
    exact .inr rfl
  | command c =>
    cases h
    cases c with
    | load bytes => exact .inr (command_load_ignored hready bytes)
    | start => exact .inr (command_start_ignored hready)
    | reset => exact .inl rfl

end Sys2Proof.Machine
end

section
/-! The reset state (R38, R200; decision D9). -/

namespace Sys2Proof.Machine

theorem resetWith_sp (cfg : Params) : (State.resetWith cfg).x[7] = Config.spReset :=
  Vector.getElem_push_eq

theorem resetWith_reg (cfg : Params) (r : Fin 7) : (State.resetWith cfg).x[r.val] = cfg.resetRegs[r.val] :=
  Vector.getElem_push_lt r.isLt

/-- Settles O53: reset keeps the parameters and takes every other element from the table of R38. -/
theorem resetValues : Obligations.ResetValues := by
  refine ⟨fun s => ⟨resetWith_sp s.cfg, rfl, rfl, rfl, rfl, rfl, rfl, rfl, rfl, resetWith_reg s.cfg⟩,
    fun _ => rfl, fun r => ?_, fun s hs => ?_⟩
  · calc State.reset.x[r.val] = defaultParams.resetRegs[r.val] := resetWith_reg defaultParams r
      _ = 0x00 := Vector.getElem_replicate r.isLt
  · rw [command_reset, hs]
    rfl

theorem inv_resetWith {cfg : Params} (h : cfg.resetMem.wf = true) : Inv (State.resetWith cfg) where
  memory_canonical := h
  reset_memory_canonical := h
  pc_bounded := Nat.zero_le 259
  error_only_halted := fun hne => absurd rfl hne
  error_explained := nofun
  ready_fresh := fun _ => rfl
  flags_reset := rfl

/-- Settles O46; the default reset memory is empty, so canonical. -/
theorem invariantHoldsAtReset : Obligations.InvariantHoldsAtReset :=
  ⟨inv_resetWith rfl, fun _ => inv_resetWith⟩

/-- The invariant in Ready leaves memory free, as long as it is canonical. -/
theorem Inv.with_mem {s : State} (h : Inv s) (hs : s.status = .ready) {m : Memory} (hm : m.wf = true) :
    Inv { s with mem := m } where
  memory_canonical := hm
  reset_memory_canonical := h.reset_memory_canonical
  pc_bounded := h.pc_bounded
  error_only_halted := h.error_only_halted
  error_explained := fun e he => by
    have hnone : s.err = none := h.err_eq_none (by simp [hs])
    cases hnone.symm.trans he
  ready_fresh := fun _ => congrArg (fun u : State => { u with mem := m }) (h.ready_fresh hs)
  flags_reset := h.flags_reset

theorem Inv.load {s : State} (h : Inv s) (bytes : List Nat) : Inv (command (.load bytes) s) := by
  rcases command_load_cases bytes s with e | ⟨hs, hlen, e⟩ <;> rw [e]
  · exact h
  · refine h.with_mem hs (Memory.wf_writeAll h.memory_canonical ?_)
    rw [List.length_map, Config.loadBase, Nat.zero_add]
    exact hlen

theorem Inv.start {s : State} (h : Inv s) : Inv (command .start s) := by
  by_cases hs : s.status = .ready
  · rw [command_start_ready hs]
    exact h.of_err_none rfl rfl (h.err_eq_none (by simp [hs])) nofun h.memory_canonical h.pc_bounded
  · rw [command_start_ignored hs]
    exact h

/-- Settles O48, command by command. -/
theorem commandsKeepInvariant : Obligations.CommandsKeepInvariant := by
  intro c s h
  cases c with
  | load bytes => exact h.load bytes
  | start => exact h.start
  | reset => exact inv_resetWith h.reset_memory_canonical

end Sys2Proof.Machine
end

section
/-! The run state's transitions (R27). -/

namespace Sys2Proof.Machine

theorem Completed.status_cases {s t : State} {i : Instr} (h : Completed s i t) :
    t.status = s.status ∨ (i = .halt ∧ t.status = .halted) := by
  cases h with
  | halt => exact .inr ⟨rfl, rfl⟩
  | _ => exact .inl rfl

/-- A step that changes the run state leads from Running to Halted, by a HALT or by raising an error. -/
theorem step_status_changed {s t : State} (h : step s = .next t) (hne : t.status ≠ s.status) :
    s.status = .running ∧ t.status = .halted ∧
      ((∃ rest, decode s.cfg (fetchWindow s) = .instr .halt rest) ∨
        ∃ er, t = { s with status := .halted, err := some er }) := by
  cases step_effect h with
  | rested _ => exact absurd rfl hne
  | raised e hs _ => exact ⟨hs, rfl, .inr ⟨e, rfl⟩⟩
  | skipped _ _ _ => exact absurd rfl hne
  | completed i rest hs _ hd ht =>
    rcases ht.status_cases with heq | ⟨rfl, hhalted⟩
    · exact absurd heq hne
    · exact ⟨hs, hhalted, .inl ⟨rest, hd⟩⟩

/-- A step in Running runs the decoded instruction. -/
theorem step_of_decode {s : State} {i : Instr} {rest : List Byte} (hs : s.status = .running)
    (hd : decode s.cfg (fetchWindow s) = .instr i rest) : step s = exec i s := by
  rw [step_running hs, cycle, hd]

/-- Settles O38, event by event. -/
theorem statusTransitionsAreExactly : Obligations.StatusTransitionsAreExactly := by
  refine ⟨rfl, fun e s t h hne => ?_, fun s hs => ?_, fun s rest hs hd => ?_, fun _ => rfl,
    fun _ bytes hs => command_load_ignored hs bytes, fun _ => step_resting⟩
  · cases e with
    | step => exact .inr (.inl ⟨rfl, step_status_changed h hne⟩)
    | command c =>
      cases h
      cases c with
      | load bytes => exact absurd (command_load_status bytes s) hne
      | start =>
        by_cases hs : s.status = .ready
        · exact .inl ⟨rfl, hs, by rw [command_start_ready hs]⟩
        · exact absurd (congrArg State.status (command_start_ignored hs)) hne
      | reset => exact .inr (.inr ⟨rfl, rfl⟩)
  · rw [command_start_ready hs]
  · exact ⟨advance 0x01 (stop s), step_of_decode hs hd, rfl⟩

end Sys2Proof.Machine
end

section
/-! Memory accesses: every cell that exists is readable and writable, and an access beyond memory raises (R40, R41;
decision D2). -/

namespace Sys2Proof.Machine

theorem memWrite_invalid {a : Nat} (h : 256 ≤ a) (v : Byte) (s : State) :
    memWrite a v s = .error (.outOfBounds a) :=
  if_neg (Nat.not_lt.2 h)

/-- Settles O45: beyond memory both accesses raise, and below address 256 neither does. -/
theorem accessBeyondMemoryRaises : Obligations.AccessBeyondMemoryRaises := by
  intro a v s
  refine ⟨fun ha => ⟨memWrite_invalid ha v s, memRead_invalid ha s⟩, fun e h => ?_⟩
  by_cases ha : a < 256
  · rw [memWrite_valid ha, memRead_valid ha] at h
    rcases h with h | h <;> cases h
  · rw [memWrite_invalid (Nat.not_lt.1 ha), memRead_invalid (Nat.not_lt.1 ha)] at h
    refine ⟨Nat.not_lt.1 ha, ?_⟩
    rcases h with h | h <;> cases h <;> rfl

/-- What a read answers depends on the byte at its address alone. -/
theorem memRead_congr {b : Nat} {s t : State} (h : byteAt b t = byteAt b s) : memRead b t = memRead b s := by
  rw [memRead, memRead, h]

/-- Settles O44, by read-after-write of the canonical memory. -/
theorem memoryCellsReadBack : Obligations.MemoryCellsReadBack := by
  intro a v s hm ha
  refine ⟨⟨_, memRead_valid ha s⟩, _, memWrite_valid ha v s, ?_, rfl, Memory.wf_write hm ha, fun b hb => ?_⟩
  · rw [memRead_valid ha]
    exact congrArg Except.ok (Memory.read_write_same hm)
  · exact memRead_congr (Memory.read_write_other hb)

end Sys2Proof.Machine
end

section
/-! PUSH is the only instruction that stores, and the next fetch sees what it stored (R43, R54, R55). -/

namespace Sys2Proof.Machine

/-- A completed instruction leaves memory as it was, or is a PUSH, which stores one byte at the decremented stack
pointer. -/
theorem Completed.mem_cases {s t : State} {i : Instr} (h : Completed s i t) :
    t.mem = s.mem ∨ ∃ (a : Byte) (ha : a.toNat < 8), i = .push a ∧
      t.mem = s.mem.write (sp s - 1).toNat (getReg ⟨a.toNat, ha⟩ (setSp (sp s - 1) s)) := by
  cases h with
  | push a ha => exact .inr ⟨a, ha, rfl, rfl⟩
  | _ => exact .inl rfl

theorem byteAt_congr {s t : State} (h : t.mem = s.mem) (c : Nat) : byteAt c t = byteAt c s :=
  congrArg (fun m => Memory.read m c) h

/-- Settles O36: resting, raising and skipping keep memory, and so does every completed instruction but PUSH. -/
theorem onlyPushWritesMemory : Obligations.OnlyPushWritesMemory := by
  intro s t c h hne
  cases step_effect h with
  | completed i rest hs _ hd ht =>
    rcases ht.mem_cases with hmem | ⟨a, ha, rfl, hmem⟩
    · exact absurd (byteAt_congr hmem c) hne
    · refine ⟨hs, ?_, a, rest, hd, ha⟩
      by_contra hc
      refine hne ?_
      rw [byteAt, hmem]
      exact Memory.read_write_other hc
  | _ => exact absurd rfl hne

/-- The memory after a PUSH of a register other than the stack pointer: the register's value stands at the decremented
stack pointer (R101). -/
theorem exec_push_mem {a : Byte} {s t : State} (ha : a.toNat < 7) (h : exec (.push a) s = .next t) :
    t.mem = s.mem.write (s.x[7] - 1).toNat s.x[a.toNat] := by
  have hne : (⟨a.toNat, by omega⟩ : Fin 8) ≠ Config.spIndex := fun he => Nat.ne_of_lt ha (congrArg Fin.val he)
  rcases execPush_cases h with ⟨ha8, rfl⟩ | ⟨ha8, -⟩
  · rw [advance_mem, getReg_setSp, if_neg hne, getReg_mk, sp_eq]
  · omega

/-- An opcode below address 256 is the first byte of the window. -/
theorem fetchWindow_head? {s : State} (h : s.pc.toNat < 256) :
    (fetchWindow s).head? = some (byteAt s.pc.toNat s) := by
  rw [fetchWindow_opcode h, List.head?_cons]

/-- Settles O43: the fetch reads the cell that the PUSH has written. -/
theorem storeIsSeenByNextFetch : Obligations.StoreIsSeenByNextFetch := by
  intro a s t ha hm h u hu hpc
  have hlt : u.pc.toNat < 256 := hpc ▸ (s.x[7] - 1).isLt
  calc (fetchWindow u).head? = some (byteAt u.pc.toNat u) := fetchWindow_head? hlt
    _ = some ((s.mem.write (s.x[7] - 1).toNat s.x[a.toNat]).read (s.x[7] - 1).toNat) := by
      rw [byteAt, hu, exec_push_mem ha h, hpc]
    _ = some s.x[a.toNat] := by rw [Memory.read_write_same hm]

end Sys2Proof.Machine
end

section
/-! The loader: what a load answers and leaves, case by case (R33, R48; decision D23). -/

namespace Sys2Proof.Machine

theorem load_ignored {s : State} (h : s.status ≠ .ready) (bytes : List Nat) : load bytes s = (s, .ignored) := by
  rw [load, if_pos h]

theorem load_outOfBounds {bytes : List Nat} {s : State} (h : s.status = .ready) (hlen : 256 < bytes.length) :
    load bytes s = (s, .outOfBounds) := by
  rw [load, if_neg (not_not_intro h), Config.memSize, if_pos hlen]

theorem load_accepted {bytes : List Nat} {s : State} (h : s.status = .ready) (hlen : bytes.length ≤ 256) :
    load bytes s = ({ s with mem := s.mem.writeAll 0 (bytes.map (BitVec.ofNat 8)) }, .accepted) := by
  rw [load, if_neg (not_not_intro h), Config.memSize, if_neg (Nat.not_lt.2 hlen), Config.loadBase]

/-- Settles O51, by the two cases in which a load is refused. -/
theorem loadRefusedLeavesState : Obligations.LoadRefusedLeavesState :=
  fun bytes _ => ⟨load_outOfBounds, fun hs => load_ignored hs bytes⟩

/-- One byte after storing a list from address 0 on: the list's byte where it has one, the old byte elsewhere. -/
theorem read_writeAll_zero {m : Memory} {vs : List Byte} (hm : m.wf = true) (hlen : vs.length ≤ 256) (i : Nat) :
    (m.writeAll 0 vs).read i = vs[i]?.getD (m.read i) := by
  rw [Memory.read_writeAll i hm (by rw [Nat.zero_add]; exact hlen), if_pos (Nat.zero_le i), Nat.sub_zero]

/-- Settles O50: an accepted load is one run of consecutive stores from address 0 on. -/
theorem loadPlacesBytes : Obligations.LoadPlacesBytes := by
  intro bytes s hs hlen hm
  rw [load_accepted hs hlen]
  refine ⟨rfl, rfl, fun i _ => ?_⟩
  rw [byteAt, read_writeAll_zero hm (by rw [List.length_map]; exact hlen), List.getElem?_map]
  by_cases hi : i < bytes.length
  · rw [dif_pos hi, List.getElem?_eq_getElem hi]
    rfl
  · rw [dif_neg hi, List.getElem?_eq_none (Nat.not_lt.1 hi)]
    rfl

end Sys2Proof.Machine
end

section
/-! The decoder and the encoder are inverse to each other (R60, R64, R66; decision D5): a placeholder is its opcode byte,
a defined instruction its own opcode and as many operand bytes as its arity says. -/

namespace Sys2Proof

theorem decode_definedOpcode (cfg : Params) (d : Defined) (rest : List Byte) :
    decode cfg (definedOpcode d :: rest) = decodeDefined d rest :=
  decode_of_defined (classify_definedOpcode cfg d) rest

/-- An instruction that is no placeholder has the opcode of a defined one, and its operand bytes decode to it whatever
bytes follow (R63, R64). -/
theorem encode_of_defined {i : Instr} (hi : i.placeholder? = none) :
    ∃ d operands, encode i = definedOpcode d :: operands ∧
      ∀ rest, decodeDefined d (operands ++ rest) = .instr i rest := by
  cases i with
  | halt => exact ⟨.halt, [], rfl, fun _ => rfl⟩
  | ldi a b => exact ⟨.ldi, [a, b], rfl, fun _ => rfl⟩
  | push a => exact ⟨.push, [a], rfl, fun _ => rfl⟩
  | pop a => exact ⟨.pop, [a], rfl, fun _ => rfl⟩
  | prn a => exact ⟨.prn, [a], rfl, fun _ => rfl⟩
  | mul a b => exact ⟨.mul, [a, b], rfl, fun _ => rfl⟩
  | jmp a => exact ⟨.jmp, [a], rfl, fun _ => rfl⟩
  | _ op => cases hi

/-- Every operand byte of a defined instruction is admitted (R63). -/
theorem wellFormed_of_defined {i : Instr} (cfg : Params) (hi : i.placeholder? = none) : i.wellFormed cfg = true := by
  cases i with
  | halt | ldi | push | pop | prn | mul | jmp => rfl
  | _ op => cases hi

/-- Settles O4: a well-formed placeholder is a key of the map, which avoids the defined opcodes; a defined instruction
decodes from its opcode and operands. -/
theorem decodeOfEncode : Obligations.DecodeOfEncode := by
  intro cfg i rest hcfg hwf
  cases hi : i.placeholder? with
  | some p =>
    obtain ⟨m, op⟩ := p
    obtain rfl := toInstr_of_placeholder? hi
    have hkey : cfg.placeholderAt op = some m := by simpa [wellFormed_toInstr] using hwf
    rw [encode_toInstr]
    exact decode_of_placeholder (classify_of_placeholderAt hcfg hkey) rest
  | none =>
    obtain ⟨d, operands, he, hd⟩ := encode_of_defined hi
    rw [he, List.cons_append, decode_definedOpcode, hd]

theorem decode_instr_wellFormed {cfg : Params} {bytes rest : List Byte} {i : Instr}
    (h : decode cfg bytes = .instr i rest) : i.wellFormed cfg = true := by
  cases bytes with
  | nil => cases h
  | cons op tail =>
    rcases decode_cons cfg op tail with ⟨-, hd⟩ | ⟨m, hc, hd⟩ | ⟨d, -, -, hd⟩ <;> rw [hd] at h
    · cases h
    · cases h
      rw [wellFormed_toInstr, classify_placeholder hc, beq_self_eq_true]
    · exact wellFormed_of_defined cfg (decodeDefined_instr h).1

/-- Settles O5, by the class of the opcode in each half. -/
theorem encodeOfDecode : Obligations.EncodeOfDecode :=
  fun _ _ _ _ h => ⟨decode_instr_wellFormed h, decode_instr_bytes h⟩

end Sys2Proof
end

section
/-! The seven defined opcodes and the other bytes (R64, R65, R66). -/

namespace Sys2Proof

theorem definedOpcode_mem (d : Defined) :
    definedOpcode d ∈ ([0x01, 0x82, 0x45, 0x46, 0x47, 0xA2, 0x54] : List Byte) := by
  cases d <;> decide

/-- A byte outside the seven defined values is classified by the placeholder map alone. -/
theorem classify_of_not_mem {op : Byte} (h : op ∉ ([0x01, 0x82, 0x45, 0x46, 0x47, 0xA2, 0x54] : List Byte))
    (cfg : Params) : classify cfg op = (cfg.placeholderAt op).elim .unregistered .placeholder := by
  have hnone : definedTable.lookup op = none := by
    rw [Option.eq_none_iff_forall_ne_some]
    intro d hd
    exact h (definedTable_lookup_some hd ▸ definedOpcode_mem d)
  rw [classify, hnone]
  cases cfg.placeholderAt op <;> rfl

/-- Settles O2: a defined value is found in the decoder's table, and any other byte is looked up in the map. -/
theorem opcodeClassesPartitionBytes : Obligations.OpcodeClassesPartitionBytes := by
  refine ⟨by decide, fun cfg => ⟨classify_definedOpcode cfg .halt, classify_definedOpcode cfg .ldi,
    classify_definedOpcode cfg .push, classify_definedOpcode cfg .pop, classify_definedOpcode cfg .prn,
    classify_definedOpcode cfg .mul, classify_definedOpcode cfg .jmp, fun op hop => ⟨fun m hm => ?_, fun hm => ?_⟩⟩⟩
  · rw [classify_of_not_mem hop, hm, Option.elim_some]
  · rw [classify_of_not_mem hop, hm, Option.elim_none]

/-- Settles O1, row by row of the table; a byte outside it is a placeholder or unregistered. -/
theorem definedOpcodesDecode : Obligations.DefinedOpcodesDecode := by
  refine fun cfg a b rest => ⟨decode_definedOpcode cfg .halt rest, decode_definedOpcode cfg .ldi (a :: b :: rest),
    decode_definedOpcode cfg .push (a :: rest), decode_definedOpcode cfg .pop (a :: rest),
    decode_definedOpcode cfg .prn (a :: rest), decode_definedOpcode cfg .mul (a :: b :: rest),
    decode_definedOpcode cfg .jmp (a :: rest), fun op bytes i tail hop h => ?_⟩
  rcases decode_cons cfg op bytes with ⟨-, hd⟩ | ⟨m, -, hd⟩ | ⟨d, -, rfl, -⟩
  · rw [hd] at h
    cases h
  · rw [hd] at h
    cases h
    simp [placeholder_toInstr]
  · exact absurd (definedOpcode_mem d) hop

theorem definedOpcode_bit4_iff (d : Defined) : (definedOpcode d).getLsbD 4 = true ↔ d = .jmp := by
  cases d <;> decide

/-- The opcode of JMP decodes to a JMP, and a JMP comes from no other opcode (R64). -/
theorem decodeDefined_jmp_iff {d : Defined} {bytes rest : List Byte} {i : Instr}
    (h : decodeDefined d bytes = .instr i rest) : d = .jmp ↔ ∃ a, i = .jmp a := by
  constructor
  · rintro rfl
    obtain ⟨a, hi, -⟩ := takeOperand_instr h
    exact ⟨a, hi⟩
  · rintro ⟨a, rfl⟩
    have hop : definedOpcode d = 0x54 := (List.cons.inj (decodeDefined_instr h).2.1).1
    rw [← definedOpcode_bit4_iff, hop]
    decide

/-- Settles O3: the opcode of a defined instruction is its row's, whose arity and control-flow bit are the table's. -/
theorem arityBitsMatchOperandCount : Obligations.ArityBitsMatchOperandCount := by
  intro cfg op bytes i rest h hi
  rcases decode_cons cfg op bytes with ⟨-, hd⟩ | ⟨m, -, hd⟩ | ⟨d, -, rfl, hd⟩ <;> rw [hd] at h
  · cases h
  · cases h
    rw [placeholder_toInstr] at hi
    cases hi
  · obtain ⟨-, -, hlen⟩ := decodeDefined_instr h
    rw [← opcodeArity_eq, Nat.add_comm, definedOpcode_bit4_iff]
    exact ⟨hlen, decodeDefined_jmp_iff h⟩

end Sys2Proof
end

section
/-! An instruction in memory is what the cycle fetches, decodes and runs (R47, R60, R80, R82). -/

namespace Sys2Proof.Machine

theorem fetchWindow_getElem? {s : State} {k : Nat} (hk : k < 3) (h : s.pc.toNat + k < 256) :
    (fetchWindow s)[k]? = some (byteAt (s.pc.toNat + k) s) := by
  rw [fetchWindow_opcode (by omega)]
  match k, hk, h with
  | 0, _, _ => rfl
  | 1, _, h1 => rw [if_pos h1]; rfl
  | 2, _, h2 => rw [if_pos (by omega : s.pc.toNat + 1 < 256), if_pos h2]; rfl

/-- Up to three bytes that stand in memory from the program counter on are the first of the window. -/
theorem isPrefix_fetchWindow {s : State} {bytes : List Byte} (hlen : bytes.length ≤ 3)
    (hend : s.pc.toNat + bytes.length ≤ 256)
    (hbytes : ∀ (k : Nat) (h : k < bytes.length), byteAt (s.pc.toNat + k) s = bytes[k]) :
    bytes <+: fetchWindow s := by
  rw [List.prefix_iff_getElem?]
  intro k hk
  rw [fetchWindow_getElem? (by omega) (by omega), hbytes k hk]

/-- Settles O9: the window starts with the instruction's bytes, which decode to it. -/
theorem stepRunsInstructionInMemory : Obligations.StepRunsInstructionInMemory := by
  intro s i hs hcfg hwf hend hbytes
  obtain ⟨rest, hrest⟩ := isPrefix_fetchWindow (encode_length_le i) hend hbytes
  exact step_of_decode hs (hrest ▸ decodeOfEncode s.cfg i rest hcfg hwf)

end Sys2Proof.Machine
end

section
/-! The controller's dispatch, class of opcode by class of opcode (R80 to R85): what the step does with an opcode that
lies beyond memory, is unregistered, is a placeholder, or is defined. -/

namespace Sys2Proof

/-- At most two operand bytes follow the opcode of a defined instruction (R60, R64). -/
theorem opcodeArity_definedOpcode_le (d : Defined) : opcodeArity (definedOpcode d) ≤ 2 := by
  cases d <;> decide

/-- The defined instruction with operand bytes `a` and `b`; a byte beyond its arity is not looked at (R64). -/
def Defined.toInstr : Defined → Byte → Byte → Instr
  | .halt, _, _ => .halt
  | .ldi, a, b => .ldi a b
  | .push, a, _ => .push a
  | .pop, a, _ => .pop a
  | .prn, a, _ => .prn a
  | .mul, a, b => .mul a b
  | .jmp, a, _ => .jmp a

/-- Of two operand bytes the first `n` are enough when the arity is `n` at most; else byte `n + 1` is missing (R82). -/
theorem decodeDefined_take (d : Defined) (a b : Byte) (n : Nat) :
    (n < opcodeArity (definedOpcode d) → decodeDefined d ([a, b].take n) = .missing (n + 1)) ∧
    (opcodeArity (definedOpcode d) ≤ n → ∃ rest, decodeDefined d ([a, b].take n) = .instr (d.toInstr a b) rest) := by
  match n with
  | 0 =>
    cases d with
    | halt => exact ⟨nofun, fun _ => ⟨_, rfl⟩⟩
    | _ => exact ⟨fun _ => rfl, fun h => absurd h (by decide)⟩
  | 1 =>
    cases d with
    | ldi | mul => exact ⟨fun _ => rfl, fun h => absurd h (by decide)⟩
    | _ => exact ⟨fun h => absurd h (by decide), fun _ => ⟨_, rfl⟩⟩
  | n + 2 =>
    refine ⟨fun h => ?_, fun _ => ?_⟩
    · have := opcodeArity_definedOpcode_le d
      omega
    · cases d <;> exact ⟨_, rfl⟩

namespace Machine

/-- Behind an opcode below address 256 the window holds the operand bytes that exist, at most two. -/
theorem fetchWindow_eq_take {s : State} (h : s.pc.toNat < 256) :
    fetchWindow s = byteAt s.pc.toNat s ::
      [byteAt (s.pc.toNat + 1) s, byteAt (s.pc.toNat + 2) s].take (255 - s.pc.toNat) := by
  rw [fetchWindow_opcode h]
  by_cases h1 : s.pc.toNat + 1 < 256
  · by_cases h2 : s.pc.toNat + 2 < 256
    · rw [if_pos h1, if_pos h2, List.take_of_length_le (by simp; omega)]
      rfl
    · rw [if_pos h1, if_neg h2, show 255 - s.pc.toNat = 1 by omega]
      rfl
  · rw [if_neg h1, if_neg (by omega), show 255 - s.pc.toNat = 0 by omega]
    rfl

theorem step_beyond {s : State} (hs : s.status = .running) (h : 256 ≤ s.pc.toNat) :
    step s = .next (raise (.outOfBounds s.pc.toNat) s) := by
  rw [step_running hs, cycle, fetchWindow_beyond h]
  rfl

theorem step_of_unregistered {s : State} (hs : s.status = .running) (h : s.pc.toNat < 256)
    (hc : classify s.cfg (byteAt s.pc.toNat s) = .unregistered) : step s = invalidOpcode (byteAt s.pc.toNat s) s := by
  rw [step_running hs, cycle, fetchWindow_opcode h, decode, hc]

theorem step_of_placeholder {s : State} {m : Placeholder} (hs : s.status = .running) (h : s.pc.toNat < 256)
    (hc : classify s.cfg (byteAt s.pc.toNat s) = .placeholder m) :
    step s = unimplemented (byteAt s.pc.toNat s) s := by
  rw [step_of_decode hs (fetchWindow_opcode h ▸ decode_of_placeholder hc _), exec_toInstr]

/-- A defined instruction whose operands all stand below address 256 executes; else the first one that does not exist,
at address 256, raises. -/
theorem step_of_defined {s : State} {d : Defined} (hs : s.status = .running) (h : s.pc.toNat < 256)
    (hop : byteAt s.pc.toNat s = definedOpcode d) :
    step s = if s.pc.toNat + opcodeArity (definedOpcode d) < 256 then
        exec (d.toInstr (byteAt (s.pc.toNat + 1) s) (byteAt (s.pc.toNat + 2) s)) s
      else .next (raise (.outOfBounds 256) s) := by
  obtain ⟨hmissing, hinstr⟩ := decodeDefined_take d (byteAt (s.pc.toNat + 1) s) (byteAt (s.pc.toNat + 2) s)
    (255 - s.pc.toNat)
  rw [step_running hs, cycle, fetchWindow_eq_take h, hop, decode_definedOpcode]
  split_ifs with hend
  · obtain ⟨rest, hd⟩ := hinstr (by omega)
    rw [hd]
  · have haddr : s.pc.toNat + (255 - s.pc.toNat + 1) = 256 := by omega
    simp only [hmissing (by omega), haddr]

/-- Settles O8: the step adds nothing around `exec`. -/
theorem stepRunsDecodedInstruction : Obligations.StepRunsDecodedInstruction :=
  fun _ _ _ => step_of_decode

/-- Settles O13: beyond memory the window is empty, and the opcode itself is missing. -/
theorem opcodeFetchBeyondMemoryRaises : Obligations.OpcodeFetchBeyondMemoryRaises :=
  fun _ => step_beyond

/-- Settles O14: the operands run past address 255 from 255 on when there is one, from 254 on when there are two; HALT
has none. -/
theorem missingOperandRaises : Obligations.MissingOperandRaises := by
  intro s d hs hpc hop
  rw [step_of_defined hs hpc hop]
  refine ⟨fun h hd => ?_, fun h hd => ?_, ?_⟩
  · have harity : 1 ≤ opcodeArity (definedOpcode d) := by
      cases d with
      | halt => exact absurd rfl hd
      | _ => decide
    rw [if_neg (by omega)]
    rfl
  · have harity : opcodeArity (definedOpcode d) = 2 := by
      rcases hd with rfl | rfl <;> rfl
    rw [if_neg (by omega)]
    rfl
  · rintro rfl
    exact if_pos hpc

theorem skipOrFault_fatal {policy : Policy} (h : policy = .fatal) (e : CoreError) (op : Byte) (s : State) :
    skipOrFault e policy op s = .next { s with status := .halted, err := some e } := by
  rw [h]
  rfl

theorem skipOrFault_continue {policy : Policy} (h : policy = .reportAndContinue) (e : CoreError) (op : Byte)
    (s : State) : skipOrFault e policy op s =
      .next { s with diag := s.diag ++ [op], pc := s.pc + BitVec.ofNat 9 (1 + op.toNat / 64) } := by
  rw [h, ← opcodeArity_eq]
  rfl

/-- Settles O15: an unregistered opcode goes to `skipOrFault` under its own policy. -/
theorem unregisteredOpcodeReportedOrRaised : Obligations.UnregisteredOpcodeReportedOrRaised := by
  rintro s op hs hpc rfl hc
  rw [step_of_unregistered hs hpc hc]
  exact ⟨fun h => skipOrFault_continue h _ _ s, fun h => skipOrFault_fatal h _ _ s⟩

/-- Settles O16: a placeholder opcode, whatever its mnemonic, goes to `skipOrFault` under its own policy. -/
theorem placeholderOpcodeRaisedOrReported : Obligations.PlaceholderOpcodeRaisedOrReported := by
  rintro s op m hs hpc rfl hc
  rw [step_of_placeholder hs hpc hc]
  exact ⟨fun h => skipOrFault_fatal h _ _ s, fun h => skipOrFault_continue h _ _ s⟩

end Machine
end Sys2Proof
end

section
/-! The step against the transcription of the controller's pseudocode (R80): operation by operation, execute stage by
execute stage, then the whole cycle. -/

namespace Sys2Proof.Reference

open Machine

theorem reg_eq {i : Nat} (h : i < 8) (s : State) : reg s i = getReg ⟨i, h⟩ s := by
  simp [reg, getReg, h]

theorem setReg_eq {i : Nat} (h : i < 8) (v : Byte) (s : State) : setReg s i v = Machine.setReg ⟨i, h⟩ v s := by
  have hx : s.x.setIfInBounds i v = s.x.set i v := by
    ext j hj
    rw [Vector.getElem_setIfInBounds, Vector.getElem_set]
  rw [setReg, hx]
  rfl

theorem reg_seven (s : State) : reg s 7 = sp s := reg_eq (by decide) s

theorem setReg_seven (s : State) (v : Byte) : setReg s 7 v = setSp v s := setReg_eq (by decide) v s

/-! Byte arithmetic of the machine, in natural numbers. -/

theorem ofNat_add_255 (v : Byte) : BitVec.ofNat 8 (v.toNat + 255) = v - 1 := by
  bv_omega

theorem ofNat_add_one (v : Byte) : BitVec.ofNat 8 (v.toNat + 1) = v + 1 := by
  bv_omega

theorem ofNat_mul_toNat (v w : Byte) : BitVec.ofNat 8 (v.toNat * w.toNat) = v * w := by
  rw [BitVec.ofNat_mul, BitVec.ofNat_toNat, BitVec.ofNat_toNat, BitVec.setWidth_eq, BitVec.setWidth_eq]

/-- The register check of a pseudocode stage, beside the operand form of the machine. -/
theorem withReg_eq_ite {a : Byte} {k : Fin 8 → Stage} {st : Stage} (h : ∀ ha : a.toNat < 8, k ⟨a.toNat, ha⟩ = st) :
    withReg a k = if a.toNat > 7 then .error (.invalidRegister a) else st := by
  rcases withReg_cases a k with ⟨ha, e⟩ | ⟨ha, e⟩
  · rw [e, if_neg (by omega), h]
  · rw [e, if_pos (by omega)]

/-- An advance, in natural-number arithmetic (R25, R83). -/
theorem advance_eq (op : Byte) (s : State) :
    advance op s = { s with pc := BitVec.ofNat 9 (s.pc.toNat + 1 + op.toNat / 64) } := by
  have hpc : s.pc + BitVec.ofNat 9 (1 + op.toNat / 64) = BitVec.ofNat 9 (s.pc.toNat + 1 + op.toNat / 64) := by
    rw [Nat.add_assoc, BitVec.ofNat_add s.pc.toNat, BitVec.ofNat_toNat, BitVec.setWidth_eq]
  rw [← hpc, ← opcodeArity_eq]
  rfl

theorem skipOrFault_eq (e : CoreError) (policy : Policy) (op : Byte) (s : State) :
    Machine.skipOrFault e policy op s = .next (skipOrFault e policy op s) := by
  cases policy with
  | fatal => rfl
  | reportAndContinue => exact congrArg Host.Outcome.next (advance_eq op (emitDiag op s))

/-- The end of a cycle without an error, in the pseudocode's words. -/
theorem finish_ok_eq (op : Byte) (s s' : State) :
    finish op s (.ok s') = .next (if op.toNat / 16 % 2 = 0 then
      { s' with pc := BitVec.ofNat 9 (s'.pc.toNat + 1 + op.toNat / 64) } else s') := by
  rw [finish, opcodeControlFlow_eq, advance_eq]
  rcases Nat.mod_two_eq_zero_or_one (op.toNat / 16) with h | h <;> simp [h]

/-- A defined instruction ends the cycle with the pseudocode's execute stage: the key step of the refinement. -/
theorem exec_eq_finish_stage (d : Defined) (a b : Byte) (s : State) :
    exec (d.toInstr a b) s = finish (definedOpcode d) s (stage d a b s) := by
  cases d with
  | halt => rfl
  | jmp => exact congrArg (fun t => finish _ s (.ok (setPc t s))) (BitVec.ofNat_toNat 9 a).symm
  | ldi => exact congrArg (finish _ s) (withReg_eq_ite fun ha => by rw [setReg_eq ha]; rfl)
  | prn => exact congrArg (finish _ s) (withReg_eq_ite fun ha => by rw [reg_eq ha]; rfl)
  | push =>
    refine congrArg (finish _ s) (withReg_eq_ite fun ha => ?_)
    simp only [reg_seven, setReg_seven, ofNat_add_255, reg_eq ha]
    exact memWrite_valid (sp_lt _) _ _
  | pop =>
    refine congrArg (finish _ s) (withReg_eq_ite fun ha => ?_)
    simp only [reg_seven, setReg_seven, ofNat_add_one, setReg_eq ha, memRead_sp]
    rfl
  | mul =>
    have hstage : aluApply .mul a b s = stage .mul a b s := by
      rw [aluApply_mul, aluBinary]
      refine withReg_eq_ite fun ha => ?_
      refine withReg_eq_ite fun hb => ?_
      rw [reg_eq ha, reg_eq hb, setReg_eq ha, ofNat_mul_toNat]
    exact congrArg (finish _ s) hstage

theorem cycle_beyond {s : State} (h : 256 ≤ s.pc.toNat) : cycle s = raise (.outOfBounds s.pc.toNat) s := if_pos h

/-! The pseudocode's three cases at an address that exists, in the machine's words. -/

theorem cycle_of_unregistered {s : State} (h : s.pc.toNat < 256)
    (hc : classify s.cfg (byteAt s.pc.toNat s) = .unregistered) :
    .next (cycle s) = invalidOpcode (byteAt s.pc.toNat s) s := by
  rw [byteAt] at hc
  rw [cycle, if_neg (by omega), invalidOpcode, skipOrFault_eq]
  simp only [hc]
  rfl

theorem cycle_of_placeholder {s : State} {m : Placeholder} (h : s.pc.toNat < 256)
    (hc : classify s.cfg (byteAt s.pc.toNat s) = .placeholder m) :
    .next (cycle s) = unimplemented (byteAt s.pc.toNat s) s := by
  rw [byteAt] at hc
  rw [cycle, if_neg (by omega), unimplemented, skipOrFault_eq]
  simp only [hc]
  rfl

theorem cycle_of_defined {s : State} {d : Defined} (h : s.pc.toNat < 256)
    (hop : byteAt s.pc.toNat s = definedOpcode d) :
    .next (cycle s) = if s.pc.toNat + opcodeArity (definedOpcode d) < 256 then
        finish (definedOpcode d) s (stage d (byteAt (s.pc.toNat + 1) s) (byteAt (s.pc.toNat + 2) s) s)
      else (.next (raise (.outOfBounds 256) s) : Result) := by
  have harity := opcodeArity_definedOpcode_le d
  rw [byteAt] at hop
  rw [cycle, if_neg (by omega)]
  simp only [hop, classify_definedOpcode, ← opcodeArity_eq]
  by_cases hend : s.pc.toNat + opcodeArity (definedOpcode d) < 256
  · rw [if_pos hend, if_neg (by omega), if_neg (by omega)]
    simp only [byteAt]
    cases stage d (s.mem.read (s.pc.toNat + 1)) (s.mem.read (s.pc.toNat + 2)) s with
    | error e => rfl
    | ok s' => rw [finish_ok_eq, ← opcodeArity_eq]
  · rw [if_neg hend]
    by_cases hlast : s.pc.toNat = 255
    · rw [if_pos (by omega), hlast]
    · rw [if_neg (by omega), if_pos (by omega), show s.pc.toNat = 254 by omega]

end Sys2Proof.Reference

namespace Sys2Proof.Machine

/-- Settles O11, by the class of the opcode at the program counter: each class is dispatched as in the pseudocode. -/
theorem stepFollowsDispatchAlgorithm : Obligations.StepFollowsDispatchAlgorithm := by
  intro s hs
  by_cases hpc : s.pc.toNat < 256
  · cases hc : classify s.cfg (byteAt s.pc.toNat s) with
    | unregistered => rw [step_of_unregistered hs hpc hc, Reference.cycle_of_unregistered hpc hc]
    | placeholder m => rw [step_of_placeholder hs hpc hc, Reference.cycle_of_placeholder hpc hc]
    | defined d =>
      have hop := classify_defined hc
      rw [step_of_defined hs hpc hop, Reference.cycle_of_defined hpc hop, Reference.exec_eq_finish_stage]
      rfl
  · rw [step_beyond hs (Nat.not_lt.1 hpc), Reference.cycle_beyond (Nat.not_lt.1 hpc)]
    rfl

end Sys2Proof.Machine
end

section
/-! Every step and every instruction answers a next state (R80, R171). -/

namespace Sys2Proof.Machine

theorem finish_answersNext (op : Byte) (s : State) (st : Stage) : ∃ t, finish op s st = .next t := by
  rcases finish_cases op s st with ⟨e, -, h⟩ | ⟨s', -, h⟩
  · exact ⟨_, h⟩
  · exact ⟨_, h⟩

theorem skipOrFault_answersNext (e : CoreError) (policy : Policy) (op : Byte) (s : State) :
    ∃ t, skipOrFault e policy op s = .next t :=
  ⟨_, Reference.skipOrFault_eq e policy op s⟩

theorem exec_answersNext (i : Instr) (s : State) : ∃ t, exec i s = .next t := by
  cases i with
  | halt => exact ⟨_, rfl⟩
  | jmp a => exact ⟨_, rfl⟩
  | ldi | push | pop | prn | mul => exact finish_answersNext _ s _
  | _ op => exact skipOrFault_answersNext _ _ op s

/-- Settles O12: in Running the step answers the pseudocode's state, and elsewhere it rests. -/
theorem everyStepAnswersNext : Obligations.EveryStepAnswersNext := by
  refine ⟨fun s => ?_, exec_answersNext⟩
  by_cases hs : s.status = .running
  · exact ⟨_, stepFollowsDispatchAlgorithm s hs⟩
  · exact ⟨s, step_resting hs⟩

end Sys2Proof.Machine
end

section
/-! HALT, PRN and JMP: the whole effect of HALT, and the frame of all three (R86, R103, R120). -/

namespace Sys2Proof.Machine

/-- Settles O18: HALT stops the controller, and its opcode has arity 0, so that the advance is by 1. -/
theorem haltCompletes : Obligations.HaltCompletes :=
  fun s => finish_ok (op := definedOpcode .halt) rfl s (stop s)

/-- Settles O33, instruction by instruction: HALT stops and advances, JMP sets the program counter, PRN appends to the
output and advances, or raises. -/
theorem haltPrnJmpFrame : Obligations.HaltPrnJmpFrame := by
  rintro a i s t (rfl | rfl | rfl) h
  · rw [execHalt_next h]
    simp
  · rcases execPrn_cases h with ⟨ha, rfl⟩ | ⟨ha, rfl⟩
    · simp [Nat.not_le.2 ha]
    · simp [Nat.not_lt.2 ha]
  · rw [execJmp_next h]
    simp

end Sys2Proof.Machine
end

section
/-! The whole effect of LDI, PUSH, POP and PRN on a register operand that exists (R100 to R103). -/

namespace Sys2Proof.Machine

/-! Reading the register that an instruction has just written, by its number. -/

theorem getReg_mk_setSp {i : Nat} (h : i < 8) (v : Byte) (s : State) :
    getReg ⟨i, h⟩ (setSp v s) = if i = 7 then v else s.x[i] := by
  rw [getReg_setSp, getReg_mk]
  exact if_congr Fin.ext_iff rfl rfl

theorem sp_setReg_mk {i : Nat} (h : i < 8) (v : Byte) (s : State) :
    sp (setReg ⟨i, h⟩ v s) = if i = 7 then v else s.x[7] := by
  rw [sp, getReg_setReg, ← sp, sp_eq]
  exact if_congr (Fin.ext_iff.trans eq_comm) rfl rfl

/-- An execute stage on one register that exists, when it raises nothing: the cycle ends with the advance (R83). -/
theorem finish_withReg_ok {op a : Byte} {k : Fin 8 → Stage} {s s' : State} (hop : opcodeControlFlow op = false)
    (ha : a.toNat < 8) (hk : k ⟨a.toNat, ha⟩ = .ok s') : finish op s (withReg a k) = .next (advance op s') := by
  rw [withReg_valid ha, hk, finish_ok hop]

theorem finish_withReg_invalid {a : Byte} (ha : 8 ≤ a.toNat) (op : Byte) (k : Fin 8 → Stage) (s : State) :
    finish op s (withReg a k) = .next (raise (.invalidRegister a) s) := by
  rw [withReg_invalid ha, finish_error]

theorem exec_ldi_valid {a : Byte} (ha : a.toNat < 8) (b : Byte) (s : State) :
    exec (.ldi a b) s = .next (advance 0x82 (setReg ⟨a.toNat, ha⟩ b s)) :=
  finish_withReg_ok rfl ha rfl

theorem exec_push_valid {a : Byte} (ha : a.toNat < 8) (s : State) :
    exec (.push a) s = .next (advance 0x45 { setSp (sp s - 1) s with
      mem := s.mem.write (sp s - 1).toNat (getReg ⟨a.toNat, ha⟩ (setSp (sp s - 1) s)) }) :=
  finish_withReg_ok rfl ha (by rw [memWrite_valid (sp_lt _), sp_setSp, setSp_mem])

theorem exec_pop_valid {a : Byte} (ha : a.toNat < 8) (s : State) :
    exec (.pop a) s = .next (advance 0x46 (setSp (sp (setReg ⟨a.toNat, ha⟩ (byteAt (sp s).toNat s) s) + 1)
      (setReg ⟨a.toNat, ha⟩ (byteAt (sp s).toNat s) s))) :=
  finish_withReg_ok rfl ha (by rw [memRead_sp])

theorem exec_prn_valid {a : Byte} (ha : a.toNat < 8) (s : State) :
    exec (.prn a) s = .next (advance 0x47 (emitOut (getReg ⟨a.toNat, ha⟩ s) s)) :=
  finish_withReg_ok rfl ha rfl

theorem exec_prn_invalid {a : Byte} (ha : 8 ≤ a.toNat) (s : State) :
    exec (.prn a) s = .next (raise (.invalidRegister a) s) :=
  finish_withReg_invalid ha _ _ s

/-- Settles O19: the opcode of LDI has arity 2, so that the advance is by 3. -/
theorem ldiWritesImmediate : Obligations.LdiWritesImmediate :=
  fun _ b s ha => exec_ldi_valid ha b s

/-- Settles O20: the stored register is read after the decrement, and the store reads back at the new pointer. -/
theorem pushStoresAtDecrementedPointer : Obligations.PushStoresAtDecrementedPointer := by
  intro a s ha
  have hexec := exec_push_valid ha s
  rw [getReg_mk_setSp, sp_eq] at hexec
  have hsp : (s.x.set 7 (s.x[7] - 1))[7] = s.x[7] - 1 := Vector.getElem_set_self _
  refine ⟨_, hexec, rfl, ?_, fun hm => ?_⟩
  · calc ((s.x.set 7 (s.x[7] - 1))[7]).toNat = (s.x[7] - 1).toNat := by rw [hsp]
      _ = (s.x[7].toNat + 255) % 256 := by rw [BitVec.toNat_sub, Nat.add_comm]; rfl
  · change Memory.read _ ((s.x.set 7 (s.x[7] - 1))[7]).toNat = _
    rw [hsp]
    exact Memory.read_write_same hm

/-- Settles O21: the pointer is read again after the popped byte is written, which for POP R7 is that byte. -/
theorem popLoadsThenIncrements : Obligations.PopLoadsThenIncrements := by
  intro a s ha
  rw [exec_pop_valid ha, sp_setReg_mk, ite_add]
  rfl

/-- Settles O22: PRN's one operand byte stands at `pc + 1`, and is missing exactly when the opcode is at 255. -/
theorem prnAppendsRegister : Obligations.PrnAppendsRegister := by
  refine ⟨fun a s ha => exec_prn_valid ha s, fun s hs hop => ?_⟩
  have hstep (hpc : s.pc.toNat < 256) : step s = if s.pc.toNat + 1 < 256 then
      exec (.prn (byteAt (s.pc.toNat + 1) s)) s else .next (raise (.outOfBounds 256) s) :=
    step_of_defined (d := .prn) hs hpc hop
  refine ⟨fun hpc => ?_, ?_⟩
  · rw [hstep (by omega), if_neg (by omega)]
    rfl
  · rintro hpc a rfl
    rw [hstep (by omega), if_pos (by omega)]
    exact ⟨fun ha => exec_prn_invalid ha s, fun ha => ⟨exec_prn_valid ha s, rfl⟩⟩

end Sys2Proof.Machine
end

section
/-! The frames of LDI, MUL, PUSH and POP: what each leaves unchanged, by what each can do (R100 to R102, R110, R23, R26;
decision D7). -/

namespace Sys2Proof.Machine

/-- Settles O30: both write one register and advance, or raise for the operand that names no register. -/
theorem ldiMulFrame : Obligations.LdiMulFrame := by
  rintro a b i s t (rfl | rfl) h
  · rcases execLdi_cases h with ⟨ha, rfl⟩ | ⟨ha, rfl⟩
    · simp +contextual [getReg_setReg, Fin.ext_iff]
    · simp [ha]
  · rcases execMul_cases h with ⟨ha, hb, rfl⟩ | ⟨ha, rfl⟩ | ⟨-, hb, rfl⟩
    · simp +contextual [getReg_setReg, Fin.ext_iff]
    · simp [ha]
    · simp [hb]

/-- Settles O31: PUSH writes the stack pointer and one byte at it, or raises. -/
theorem pushFrame : Obligations.PushFrame := by
  intro a s t h
  rcases execPush_cases h with ⟨ha, rfl⟩ | ⟨ha, rfl⟩
  · refine ⟨fun r hr => (getReg_setSp r _ s).trans (if_neg hr), rfl, rfl, rfl, rfl, ?_, fun _ => ⟨rfl, rfl⟩,
      fun ha8 => absurd ha (Nat.not_lt.2 ha8)⟩
    rintro _ rfl c hc
    rw [sp_setSp] at hc
    exact Memory.read_write_other hc
  · simp [Nat.not_lt.2 ha]

/-- Settles O32: POP writes register `a` and the stack pointer, or raises. -/
theorem popFrame : Obligations.PopFrame := by
  intro a s t h
  rcases execPop_cases h with ⟨ha, s', rfl, rfl⟩ | ⟨ha, rfl⟩
  · simp +contextual [getReg_setSp, getReg_setReg, Fin.ext_iff, Nat.not_le.2 ha]
  · simp [Nat.not_lt.2 ha]

end Sys2Proof.Machine
end

section
/-! The stack law: what PUSH stores, POP brings back (R101, R102). -/

namespace Sys2Proof.Machine

/-- The registers after a POP into a register other than the stack pointer (R102). -/
theorem exec_pop_regs {c : Byte} {s t : State} (hc : c.toNat < 7) (h : exec (.pop c) s = .next t) :
    t.x[c.toNat] = byteAt s.x[7].toNat s ∧ t.x[7] = s.x[7] + 1 := by
  rw [popLoadsThenIncrements c s (by omega), if_neg (by omega)] at h
  cases h
  refine ⟨?_, Vector.getElem_set_self _⟩
  rw [Vector.getElem_set_ne _ _ (by omega), Vector.getElem_set_self]

/-- Settles O42, by the effects and the frames of PUSH and POP: the pop reads the cell the push has stored to, and its
increment undoes the decrement. -/
theorem pushThenPopRoundTrip : Obligations.PushThenPopRoundTrip := by
  intro a c s ha hc hm
  obtain ⟨t, hpush, ht, -, hbyte⟩ := pushStoresAtDecrementedPointer a s (by omega)
  obtain ⟨u, hpop⟩ := exec_answersNext (.pop c) t
  obtain ⟨hregPush, -, -, -, -, hmemPush, -⟩ := pushFrame a s t hpush
  obtain ⟨hregPop, -, -, -, -, hmemPop, -⟩ := popFrame c t u hpop
  obtain ⟨hpopped, hincremented⟩ := exec_pop_regs hc hpop
  have hsp : t.x[7] = s.x[7] - 1 := by simp [ht]
  have hstored : byteAt (s.x[7] - 1).toNat t = s.x[a.toNat] := by
    rw [← hsp, hbyte hm, if_neg (by omega)]
  have hrestored : u.x[7] = s.x[7] := by rw [hincremented, hsp, BitVec.sub_add_cancel]
  refine ⟨t, u, hpush, hpop, ?_, hrestored, (hmemPop _).trans hstored, fun r hr => ?_, fun b hb => ?_⟩
  · rw [hpopped, hsp, hstored]
  · by_cases hr7 : r = Config.spIndex
    · subst hr7
      exact hrestored
    · exact (hregPop r hr7 hr).trans (hregPush r hr7)
  · rw [hmemPop, hmemPush _ rfl b]
    rwa [sp_setSp, sp_eq]

end Sys2Proof.Machine
end

section
/-! The ALU's results on registers that exist, in the spec's arithmetic modulo 256, and the MUL instruction (R110 to
R116). -/

namespace Sys2Proof.Machine

/-! Byte arithmetic, read in natural numbers (R117). -/

theorem byte_add_eq_ofNat (p q : Byte) : p + q = BitVec.ofNat 8 ((p.toNat + q.toNat) % 256) := by bv_omega

theorem byte_sub_eq_ofNat (p q : Byte) : p - q = BitVec.ofNat 8 ((p.toNat + 256 - q.toNat) % 256) := by bv_omega

theorem byte_mul_eq_ofNat (p q : Byte) : p * q = BitVec.ofNat 8 (p.toNat * q.toNat % 256) :=
  BitVec.eq_of_toNat_eq (by rw [BitVec.toNat_mul, BitVec.toNat_ofNat, Nat.mod_mod])

/-- The product's low byte does not depend on how the operands are read (R113). -/
theorem byte_mul_eq_ofInt (p q : Byte) : p * q = BitVec.ofInt 8 (p.toInt * q.toInt) := by
  rw [BitVec.ofInt_mul, BitVec.ofInt_toInt, BitVec.ofInt_toInt]

/-! The ALU on two registers that exist. -/

/-- The computation sees the two registers alone: in every state that holds `p` and `q` in them, its result goes to the
first and nowhere else. -/
theorem aluBinary_writes {a b : Byte} (ha : a.toNat < 8) (hb : b.toNat < 8) {f : Byte → Byte → Except CoreError Byte}
    {p q r : Byte} (h : f p q = .ok r) {s : State} (hp : s.x[a.toNat] = p) (hq : s.x[b.toNat] = q) :
    aluBinary f a b s = .ok { s with x := s.x.set a.toNat r } := by
  subst hp hq
  exact aluBinary_ok ha hb h

theorem aluApply_add_valid {a b : Byte} (ha : a.toNat < 8) (hb : b.toNat < 8) (s : State) :
    aluApply .add a b s = .ok { s with x := s.x.set a.toNat (s.x[a.toNat] + s.x[b.toNat]) } :=
  (aluApply_add a b s).trans (aluBinary_ok ha hb rfl)

theorem aluApply_sub_valid {a b : Byte} (ha : a.toNat < 8) (hb : b.toNat < 8) (s : State) :
    aluApply .sub a b s = .ok { s with x := s.x.set a.toNat (s.x[a.toNat] - s.x[b.toNat]) } :=
  (aluApply_sub a b s).trans (aluBinary_ok ha hb rfl)

theorem aluApply_mul_valid {a b : Byte} (ha : a.toNat < 8) (hb : b.toNat < 8) (s : State) :
    aluApply .mul a b s = .ok { s with x := s.x.set a.toNat (s.x[a.toNat] * s.x[b.toNat]) } :=
  (aluApply_mul a b s).trans (aluBinary_ok ha hb rfl)

theorem aluApply_div_nonzero {a b : Byte} (ha : a.toNat < 8) (hb : b.toNat < 8) {s : State} (hq : s.x[b.toNat] ≠ 0) :
    aluApply .div a b s = .ok { s with x := s.x.set a.toNat (s.x[a.toNat] / s.x[b.toNat]) } :=
  aluBinary_ok ha hb (aluDivide_nonzero hq b _)

theorem aluApply_div_zero {a b : Byte} (ha : a.toNat < 8) (hb : b.toNat < 8) {s : State} (hq : s.x[b.toNat] = 0) :
    aluApply .div a b s = .error (.divisionByZero b) :=
  aluBinary_error ha hb (aluDivide_zero hq b _)

/-- The MUL instruction, when the ALU's MUL raises nothing: the ALU's state, advanced past the opcode `0xA2` (R110). -/
theorem exec_mul_of_ok {a b : Byte} {s t : State} (h : aluApply .mul a b s = .ok t) :
    exec (.mul a b) s = .next (advance 0xA2 t) := by
  change finish 0xA2 s (aluApply .mul a b s) = _
  rw [h, finish_ok rfl]

/-- Settles O27, by the operation's one computation on two bytes: it gives a result, or is DIV with a zero divisor. -/
theorem aluAppliesOrLeavesState : Obligations.AluAppliesOrLeavesState := by
  intro op a b s
  refine ⟨?_, fun hop => ?_⟩
  · rintro ⟨n, rfl⟩
    exact aluApply_unknown n a b s
  obtain ⟨n, hn⟩ | ⟨f, happly, hf⟩ := aluApply_cases op a b
  · exact absurd hn (hop n)
  simp only [happly]
  refine ⟨fun ha => aluBinary_invalid_first ha b f s, fun ha hb => aluBinary_invalid_second ha hb f s, fun ha hb => ?_⟩
  obtain ⟨r, hr⟩ | ⟨hdiv, hzero, herr⟩ := hf s.x[a.toNat] s.x[b.toNat]
  · have hok := aluBinary_writes ha hb hr rfl rfl
    refine ⟨fun t ht => ⟨r, ?_, fun s' hp hq => aluBinary_writes ha hb hr hp hq⟩, .inl ⟨_, hok⟩⟩
    exact Except.ok.inj (ht.symm.trans hok)
  · have hraise : aluBinary f a b s = .error (.divisionByZero b) := aluBinary_error ha hb herr
    refine ⟨fun t ht => ?_, .inr ⟨hdiv, hzero, hraise⟩⟩
    rw [hraise] at ht
    cases ht

/-- Settles O28: the ALU's product of two bytes is the low byte of either reading's product, and the stage has left the
program counter where the cycle began. -/
theorem aluMulKeepsLowByte : Obligations.AluMulKeepsLowByte := by
  intro a b s ha hb
  have hok := aluApply_mul_valid ha hb s
  rw [byte_mul_eq_ofNat] at hok
  refine ⟨hok, fun t ht => ?_, ?_⟩
  · have hpc : t.pc = s.pc := by rw [Except.ok.inj (ht.symm.trans hok)]
    rw [exec_mul_of_ok ht, ← hpc]
    rfl
  · rw [← byte_mul_eq_ofNat, byte_mul_eq_ofInt]

/-- Settles O23: the MUL instruction gives the ALU's state with the program counter advanced. -/
theorem mulWritesLowByteOfProduct : Obligations.MulWritesLowByteOfProduct := by
  intro a b s ha hb
  obtain ⟨hok, hexec, -⟩ := aluMulKeepsLowByte a b s ha hb
  exact hexec _ hok

/-- Settles O29, operation by operation: the byte that each computation gives is the spec's formula (R112, R114,
R115). -/
theorem aluSumDifferenceQuotient : Obligations.AluSumDifferenceQuotient := by
  refine ⟨fun a b s ha hb => ⟨?_, ?_, fun hq => ?_, fun hq => ?_⟩, aluApply_unknown⟩
  · rw [aluApply_add_valid ha hb, byte_add_eq_ofNat]
  · rw [aluApply_sub_valid ha hb, byte_sub_eq_ofNat]
  · rw [aluApply_div_nonzero ha hb (BitVec.toNat_ne.2 hq), BitVec.udiv_def]
  · exact aluApply_div_zero ha hb (BitVec.eq_of_toNat_eq hq)

end Sys2Proof.Machine
end

section
/-! The program counter: JMP alone sets it to its operand, and every other cycle that raises nothing advances it past the
opcode and its arity bits (R25, R83, R86, R120, R121; decisions D2, D4, D12, D13). -/

namespace Sys2Proof.Machine

theorem addr8_toNat (a : Byte) : (addr8 a).toNat = a.toNat :=
  BitVec.toNat_setWidth_of_le (by decide)

/-- From an opcode address that exists the 9-bit program counter advances without wrap (D2). -/
theorem advance_pc_toNat {s : State} (op : Byte) (h : s.pc.toNat < 256) :
    (advance op s).pc.toNat = s.pc.toNat + 1 + op.toNat / 64 := by
  have hop := op.isLt
  rw [Reference.advance_eq]
  exact Nat.mod_eq_of_lt (by omega)

/-- Where a completed instruction leaves the program counter. -/
theorem Completed.pc_cases {s t : State} {i : Instr} (h : Completed s i t) :
    (∃ a, i = .jmp a ∧ t.pc = addr8 a) ∨
    ((∀ a, i ≠ .jmp a) ∧ ∃ op, (encode i).head? = some op ∧ t.pc = (advance op s).pc) := by
  cases h with
  | jmp a => exact .inl ⟨a, rfl, rfl⟩
  | _ => exact .inr ⟨nofun, _, rfl, rfl⟩

/-- The instruction a cycle decodes has the opcode at the program counter. -/
theorem encode_head?_of_decode {s : State} {i : Instr} {rest : List Byte} (hpc : s.pc.toNat < 256)
    (hd : decode s.cfg (fetchWindow s) = .instr i rest) : (encode i).head? = some (byteAt s.pc.toNat s) := by
  rw [← fetchWindow_head? hpc, decode_instr_bytes hd, List.head?_append_of_ne_nil _ (encode_ne_nil i)]

/-- A JMP is decoded only from the defined opcode of JMP (R64). -/
theorem classify_of_decode_jmp {s : State} {a : Byte} {rest : List Byte} (hpc : s.pc.toNat < 256)
    (hd : decode s.cfg (fetchWindow s) = .instr (.jmp a) rest) :
    classify s.cfg (byteAt s.pc.toNat s) = .defined .jmp := by
  have hop : definedOpcode .jmp = byteAt s.pc.toNat s := Option.some.inj (encode_head?_of_decode hpc hd)
  rw [← hop]
  exact classify_definedOpcode s.cfg .jmp

/-- Settles O24: the opcode of JMP has the control-flow bit, so that no advance follows. -/
theorem jmpSetsProgramCounter : Obligations.JmpSetsProgramCounter :=
  fun a s => ⟨setPc (addr8 a) s, finish_ok_controlFlow (op := definedOpcode .jmp) rfl s _, rfl, addr8_toNat a⟩

/-- Settles O41: a step in Running that raises nothing skips an opcode that is no JMP, or completes the decoded
instruction. -/
theorem onlyJmpTransfersControl : Obligations.OnlyJmpTransfersControl := by
  intro s t hs _ h herr
  cases step_effect h with
  | rested hrest => exact absurd hs hrest
  | raised e _ _ => cases herr
  | skipped _ hpc hc =>
    exact ⟨fun a rest hd => absurd (classify_of_decode_jmp hpc hd) (hc .jmp), fun _ => advance_pc_toNat _ hpc⟩
  | completed i rest _ hpc hd ht =>
    rcases ht.pc_cases with ⟨a, rfl, htarget⟩ | ⟨hi, op, hop, hnext⟩
    · refine ⟨fun a' rest' hd' => ?_, fun hne => absurd hd (hne a rest)⟩
      cases hd.symm.trans hd'
      rw [htarget, addr8_toNat]
    · refine ⟨fun a' rest' hd' => ?_, fun _ => ?_⟩
      · cases hd.symm.trans hd'
        exact absurd rfl (hi a')
      · obtain rfl : op = byteAt s.pc.toNat s := Option.some.inj (hop.symm.trans (encode_head?_of_decode hpc hd))
        rw [hnext, advance_pc_toNat _ hpc]

end Sys2Proof.Machine
end

section
/-! The placeholders (R130 to R158; decisions D5, D6): every one means the shared `unimplemented`, and the rows of the
default map, which the statements write out, are the map's own rows. -/

namespace Sys2Proof
namespace Machine

theorem exec_of_placeholder? {i : Instr} {m : Placeholder} {op : Byte} (h : i.placeholder? = some (m, op)) (s : State) :
    exec i s = unimplemented op s := by
  rw [toInstr_of_placeholder? h, exec_toInstr]

/-- Settles O25: the 27 instructions are those of the default map's mnemonics, each with the shared meaning. -/
theorem placeholdersRaiseUnimplemented : Obligations.PlaceholdersRaiseUnimplemented := by
  intro op s i hi
  obtain ⟨row, -, rfl⟩ : ∃ row ∈ defaultPlaceholders, row.2.toInstr op = i := List.mem_map.1 hi
  rw [exec_toInstr]
  exact ⟨fun h => skipOrFault_fatal h _ _ s, fun h => skipOrFault_continue h _ _ s⟩

/-- Settles O34: a placeholder raises, or is reported and skipped, as the policy says. -/
theorem placeholderFrame : Obligations.PlaceholderFrame := by
  intro m op i s t hi h
  rw [exec_of_placeholder? hi] at h
  rcases skipOrFault_next h with ⟨hpolicy, rfl⟩ | ⟨hpolicy, rfl⟩ <;> simp [hpolicy]

end Machine

theorem lookup_of_mem_defaultPlaceholders {row : Byte × Placeholder} (h : row ∈ defaultPlaceholders) :
    defaultPlaceholders.lookup row.1 = some row.2 := by
  revert row
  decide

/-- Under the default map each of its keys is a placeholder: no key is listed twice, and none is a defined opcode. -/
theorem classify_of_mem_defaultPlaceholders {cfg : Params} (hcfg : cfg.placeholders = defaultPlaceholders)
    {row : Byte × Placeholder} (h : row ∈ defaultPlaceholders) : classify cfg row.1 = .placeholder row.2 := by
  have hwf : cfg.wf = true := by
    rw [Params.wf, hcfg]
    exact opcodeClassesPartitionBytes.1
  refine classify_of_placeholderAt hwf ?_
  rw [Params.placeholderAt, hcfg]
  exact lookup_of_mem_defaultPlaceholders h

/-- Settles O7: the bytes written out are the keys of the default map, in its order. -/
theorem defaultPlaceholderBytesDecode : Obligations.DefaultPlaceholderBytesDecode := by
  intro cfg rest hcfg entry hentry
  obtain ⟨row, hrow, rfl⟩ : ∃ row ∈ defaultPlaceholders, (row.1, row.2.toInstr row.1) = entry :=
    List.mem_map.1 hentry
  exact decode_of_placeholder (classify_of_mem_defaultPlaceholders hcfg hrow) rest

/-- Settles O17: the lengths written out are `1 + opcode[7:6]` of the default map's keys, so that each row is a case of
what any placeholder opcode does. -/
theorem defaultPlaceholderRows : Obligations.DefaultPlaceholderRows := by
  intro entry hentry s hs hpc hcfg hop
  obtain ⟨row, hrow, rfl⟩ : ∃ row ∈ defaultPlaceholders, (row.1, 1 + row.1.toNat / 64) = entry :=
    List.mem_map.1 hentry
  exact Machine.placeholderOpcodeRaisedOrReported s row.1 row.2 hs hpc hop
    (classify_of_mem_defaultPlaceholders hcfg hrow)

end Sys2Proof
end

section
/-! The register check: an operand byte above 7 raises before anything is written (R21, R63, R173; decisions D1, D7,
D18). -/

namespace Sys2Proof.Machine

/-- The MUL instruction, when the ALU's MUL raises (R110, R111). -/
theorem exec_mul_of_error {a b : Byte} {s : State} {e : CoreError} (h : aluApply .mul a b s = .error e) :
    exec (.mul a b) s = .next (raise e s) := by
  change finish 0xA2 s (aluApply .mul a b s) = _
  rw [h, finish_error]

/-- Settles O26: LDI, PUSH, POP and PRN check their one register, MUL its two in order, and JMP only sets the program
counter. -/
theorem invalidRegisterRaises : Obligations.InvalidRegisterRaises := by
  refine ⟨fun a s ha => ⟨fun b => ?ldi, ?push, ?pop, ?prn, fun b => ?mulFirst⟩, fun a b s ha hb => ?mulSecond,
    fun a s t h => ?jmp⟩
  case ldi => exact finish_withReg_invalid ha _ _ s
  case push => exact finish_withReg_invalid ha _ _ s
  case pop => exact finish_withReg_invalid ha _ _ s
  case prn => exact exec_prn_invalid ha s
  case mulFirst => exact exec_mul_of_error ((aluApply_mul a b s).trans (aluBinary_invalid_first ha b _ s))
  case mulSecond => exact exec_mul_of_error ((aluApply_mul a b s).trans (aluBinary_invalid_second ha hb _ s))
  case jmp =>
    rw [execJmp_next h]
    exact ⟨rfl, rfl⟩

end Sys2Proof.Machine
end

section
/-! Whole runs: what every event keeps holds in every state reached from reset (R24, R28, R42, R87, R176). -/

namespace Sys2Proof.Machine

theorem command_cfg (c : Command) (s : State) : (command c s).cfg = s.cfg := by
  cases c with
  | load bytes => rcases command_load_cases bytes s with h | ⟨-, -, h⟩ <;> rw [h]
  | start =>
    by_cases hs : s.status = .ready
    · rw [command_start_ready hs]
    · rw [command_start_ignored hs]
  | reset => rfl

theorem react_cfg {e : Event} {s t : State} (h : react e s = .next t) : t.cfg = s.cfg := by
  cases e with
  | step => exact (step_fl_cfg h).2
  | command c =>
    cases h
    exact command_cfg c s

/-- Every event keeps the invariant. -/
theorem Inv.react {e : Event} {s t : State} (hs : Inv s) (h : react e s = .next t) : Inv t := by
  cases e with
  | step => exact stepKeepsInvariant s t hs h
  | command c =>
    cases h
    exact commandsKeepInvariant c s hs

theorem ReachedFrom.cfg_eq {s₀ s : State} (h : ReachedFrom s₀ s) : s.cfg = s₀.cfg := by
  induction h with
  | refl => rfl
  | event e _ hreact ih => exact (react_cfg hreact).trans ih

theorem ReachedFrom.inv {s₀ s : State} (h : ReachedFrom s₀ s) (h₀ : Inv s₀) : Inv s := by
  induction h with
  | refl => exact h₀
  | event e _ hreact ih => exact ih.react hreact

/-- Settles O49: the invariant holds at reset and along the run, and it explains every latched error, which it cannot
for the two that R176 calls unreachable. -/
theorem reachedStatesAreSafe : Obligations.ReachedStatesAreSafe := by
  intro cfg s hmem hreached
  have hinv : Inv s := hreached.inv (inv_resetWith hmem)
  exact ⟨hinv, hreached.cfg_eq, fun herr => hinv.error_explained _ herr, fun _ herr => hinv.error_explained _ herr⟩

end Sys2Proof.Machine
end
